-- ==== Sys2Proof/Word.lean ====
section
/-!
DEFINITION. The two word types of the int128 CORE (spec/00_scope.md rules R8, R10 and R11).

A register limb is 64 bits (`LIMB_WIDTH`), a value is two limbs, 128 bits (`VALUE_WIDTH`). Both are
bit vectors: the spec adds, shifts and masks them. Every value is unsigned unless a rule reads it as signed,
and then the reading is `BitVec.toInt`, "a relabeling, never a data transformation".
-/

namespace Sys2Proof

/-- R8: one 64-bit word of the two-word representation (`LIMB_WIDTH = 64`). -/
abbrev Limb := BitVec 64

/-- R8: a 128-bit value held as two limbs (`LIMBS = 2`, `VALUE_WIDTH = 128`). -/
abbrev Value := BitVec 128

/-- One byte of the host's view of the register window (R44). -/
abbrev Byte := BitVec 8

/-- R40: a byte offset inside the 256-byte register window. -/
abbrev Offset := BitVec 8

/-- R60: the 64-bit value of one host write to `CMD`. -/
abbrev CmdWord := BitVec 64

end Sys2Proof
end

