-- ==== Sys2Proof/Config.lean ====
section
/-!
DEFINITION. The parameters of the hardware (spec/00_scope.md rule R9) and the model's free values.

The fixed parameters are plain numbers. The two OPEN parameters, `HOST_BYTE_ORDER` and `BLOCK_BASE`, are
constants without a body, so nothing can be proved of the value an implementation chose (notes/assumptions/3
and 4); every function that depends on one takes it as an argument. The free values stand for the register
contents the spec leaves open after a loss of power (notes/assumptions/6).
-/

namespace Sys2Proof

/-- R44: the two values of `HOST_BYTE_ORDER`, the byte order of each 64-bit register as the host bus sees it. -/
inductive ByteOrder where
  | little
  | big
  deriving DecidableEq, Repr, Inhabited

namespace Config

/-- R9: `MOD_MIN`, the least modulus of `MODM`. -/
def modMin : Nat := 2

/-- R9: `MOD_MAX`, the greatest modulus of `MODM`. -/
def modMax : Nat := 63

/-- R40: the register window is 256 bytes. -/
def windowSize : Nat := 256

/-- R42: the one admitted access width, in bytes. -/
def accessBytes : Nat := 8

/-- R9, R161: the correction loop of Algorithm D decrements the trial digit at most twice. -/
def correctionBound : Nat := 2

/-- R9, R44: `HOST_BYTE_ORDER`, OPEN. Free: no body (notes/assumptions/3). -/
opaque hostByteOrder : ByteOrder

/-- R9, R41: `BLOCK_BASE` is OPEN but a multiple of 256; this is the open multiplier. Free: no body
(notes/assumptions/4). -/
opaque windowIndex : Nat

/-- R41: `BLOCK_BASE`, the host address of window offset 0, a multiple of 256. -/
def blockBase : Nat := windowSize * windowIndex

/-- R202, I15: what a 128-bit register holds after a loss of power, "any value", one draw for each use.
Free: no body (notes/assumptions/6). -/
opaque valueAfterPowerLoss : Nat → Value

/-- R202, I15: what a bit of `STATUS` holds after a loss of power. Free: no body (notes/assumptions/6). -/
opaque flagAfterPowerLoss : Nat → Bool

end Config

end Sys2Proof
end

