-- ==== Sys2Proof/Syntax.lean ====
section
/-!
DEFINITION. The commands of the int128 CORE (spec/30_encoding.md rule R66): one constructor per row of
spec/opcode_table.json, in the table's order. A command names no register and no address (R61, R70): its operands
are the fixed registers, so only `EXT` and `MODM` carry an immediate.
-/

namespace Sys2Proof

/-- R63: the field `W` of `EXT`, `width(W) = 8 · 2^W`. -/
inductive ExtWidth where
  | w8
  | w16
  | w32
  | w64
  deriving DecidableEq, Repr

/-- R63: the source width of `EXT` in bits. -/
def ExtWidth.bits : ExtWidth → Nat
  | .w8 => 8
  | .w16 => 16
  | .w32 => 32
  | .w64 => 64

/-- R66: the 32 commands. -/
inductive Instr where
  /-- R180 -/
  | nop
  /-- R80 -/
  | add
  /-- R81 -/
  | sub
  /-- R82 -/
  | inc
  /-- R83 -/
  | dec
  /-- R84 -/
  | and
  /-- R85 -/
  | or
  /-- R86 -/
  | xor
  /-- R87 -/
  | not
  /-- R89 -/
  | shl
  /-- R90 -/
  | shr
  /-- R91 -/
  | eq
  /-- R92 -/
  | ne
  /-- R93 -/
  | ltu
  /-- R94 -/
  | leu
  /-- R95 -/
  | gtu
  /-- R96 -/
  | geu
  /-- R97 -/
  | clz
  /-- R98 -/
  | ctz
  /-- R99 -/
  | efflen
  /-- R100 -/
  | ispow2
  /-- R101: `signed` is the field `S` (true: sign-extend), `width` the field `W`. -/
  | ext (signed : Bool) (width : ExtWidth)
  /-- R121 -/
  | mul
  /-- R122 -/
  | mulw64
  /-- R123 -/
  | fmulh64
  /-- R135 -/
  | divrem
  /-- R150 -/
  | kdivrem
  /-- R170: the modulus `M` is the whole field `IMM8`. -/
  | modm (m : BitVec 8)
  /-- R181 -/
  | movya
  /-- R182 -/
  | movyb
  /-- R183 -/
  | movza
  /-- R184 -/
  | movzb
  deriving DecidableEq, Repr

end Sys2Proof
end

