-- ==== Sys2Proof/WellFormed.lean ====
section
/-!
DEFINITION. Which commands have an encoding. The one check is the modulus of `MODM` (spec/30_encoding.md rule
R64): every other field of `Instr` has exactly the values its bits admit.
-/

namespace Sys2Proof

/-- R64: "It is legal iff `2 <= M <= 63`". -/
def modulusLegal (m : BitVec 8) : Bool :=
  decide (Config.modMin ≤ m.toNat) && decide (m.toNat ≤ Config.modMax)

/-- A command that some legal word encodes. -/
def Instr.wellFormed : Instr → Bool
  | .modm m => modulusLegal m
  | .nop | .add | .sub | .inc | .dec | .and | .or | .xor | .not | .shl | .shr
  | .eq | .ne | .ltu | .leu | .gtu | .geu | .clz | .ctz | .efflen | .ispow2
  | .ext _ _ | .mul | .mulw64 | .fmulh64 | .divrem | .kdivrem
  | .movya | .movyb | .movza | .movzb => true

end Sys2Proof
end

