-- ==== Sys2Proof/Decode.lean ====
section
/-!
DEFINITION. Decoding and encoding of the `CMD` value (spec/30_encoding.md rules R60 to R69).

`decode` is total on all 64-bit values and rejects by name. `legal` is rule R67's formula, written apart from
the decoder, so that the two can be held against each other. `encode` is the words of a well-formed command,
written from the opcode map (R66) and the fields (R61, R63, R64).
-/

namespace Sys2Proof

/-- Why a `CMD` value is illegal. Every reason has the one effect of R193; the name says which line of R67 fails. -/
inductive Reject where
  /-- `w[63:32] != 0` (R61 `RSV2`). -/
  | rsv2
  /-- `w[31:16] != 0` (R61 `RSV1`). -/
  | rsv1
  /-- `w[7:6] != 0` (R61 `RSV0`). -/
  | rsv0
  /-- `OP` is not assigned in R66. -/
  | reservedOp
  /-- `EXT` with `w[15:11] != 0` (R63). -/
  | extReserved
  /-- `MODM` with `M` outside 2..63 (R64). -/
  | modulusRange
  /-- Any other command with `IMM8 != 0` (R65). -/
  | immNotZero
  deriving DecidableEq, Repr

/-! ## Fields (R61) -/

/-- R61, R62: `OP = w[5:0]`. -/
def opField (w : CmdWord) : BitVec 6 := w.extractLsb' 0 6

/-- R61: `RSV0 = w[7:6]`. -/
def rsv0Field (w : CmdWord) : BitVec 2 := w.extractLsb' 6 2

/-- R61: `IMM8 = w[15:8]`. -/
def immField (w : CmdWord) : BitVec 8 := w.extractLsb' 8 8

/-- R61: `RSV1 = w[31:16]`. -/
def rsv1Field (w : CmdWord) : BitVec 16 := w.extractLsb' 16 16

/-- R61: `RSV2 = w[63:32]`. -/
def rsv2Field (w : CmdWord) : BitVec 32 := w.extractLsb' 32 32

/-- R63: `W` is `IMM8[1:0]`. -/
def extWidthField (imm : BitVec 8) : ExtWidth :=
  match imm.extractLsb' 0 2 with
  | 0b00#2 => .w8
  | 0b01#2 => .w16
  | 0b10#2 => .w32
  | _ => .w64

/-- R63: `S` is `IMM8[2]`. -/
def extSignField (imm : BitVec 8) : Bool := imm.getLsbD 2

/-- R63: `IMM8[7:3]`, must be 0. -/
def extReservedField (imm : BitVec 8) : BitVec 5 := imm.extractLsb' 3 5

/-! ## Legality (R67) -/

/-- R66: the assigned values of `OP`. -/
def opAssigned (op : BitVec 6) : Bool :=
  decide (op.toNat ≤ 0x15)
    || (decide (0x18 ≤ op.toNat) && decide (op.toNat ≤ 0x1A))
    || (decide (0x20 ≤ op.toNat) && decide (op.toNat ≤ 0x22))
    || (decide (0x30 ≤ op.toNat) && decide (op.toNat ≤ 0x33))

/-- R67: the formula `legal(w)`. -/
def legal (w : CmdWord) : Bool :=
  (w.extractLsb' 16 48 == 0#48)
    && (w.extractLsb' 6 2 == 0#2)
    && opAssigned (w.extractLsb' 0 6)
    && (if w.extractLsb' 0 6 = 0x15#6 then w.extractLsb' 11 5 == 0#5
        else if w.extractLsb' 0 6 = 0x22#6 then
          decide (2 ≤ (w.extractLsb' 8 8).toNat) && decide ((w.extractLsb' 8 8).toNat ≤ 63)
        else w.extractLsb' 8 8 == 0#8)

/-! ## Decoder -/

/-- R65: a command without an immediate needs `IMM8 = 0`. -/
def plain (i : Instr) (imm : BitVec 8) : Except Reject Instr :=
  if imm = 0#8 then .ok i else .error .immNotZero

/-- R63: `EXT` with its subfields. -/
def decodeExt (imm : BitVec 8) : Except Reject Instr :=
  if extReservedField imm = 0#5 then .ok (.ext (extSignField imm) (extWidthField imm))
  else .error .extReserved

/-- R64: `MODM` with its modulus. -/
def decodeModm (imm : BitVec 8) : Except Reject Instr :=
  if modulusLegal imm then .ok (.modm imm) else .error .modulusRange

/-- R66: the opcode map, read from `OP` to the command. -/
def decodeOp (op : BitVec 6) (imm : BitVec 8) : Except Reject Instr :=
  match op with
  | 0x00#6 => plain .nop imm
  | 0x01#6 => plain .add imm
  | 0x02#6 => plain .sub imm
  | 0x03#6 => plain .inc imm
  | 0x04#6 => plain .dec imm
  | 0x05#6 => plain .and imm
  | 0x06#6 => plain .or imm
  | 0x07#6 => plain .xor imm
  | 0x08#6 => plain .not imm
  | 0x09#6 => plain .shl imm
  | 0x0A#6 => plain .shr imm
  | 0x0B#6 => plain .eq imm
  | 0x0C#6 => plain .ne imm
  | 0x0D#6 => plain .ltu imm
  | 0x0E#6 => plain .leu imm
  | 0x0F#6 => plain .gtu imm
  | 0x10#6 => plain .geu imm
  | 0x11#6 => plain .clz imm
  | 0x12#6 => plain .ctz imm
  | 0x13#6 => plain .efflen imm
  | 0x14#6 => plain .ispow2 imm
  | 0x15#6 => decodeExt imm
  | 0x18#6 => plain .mul imm
  | 0x19#6 => plain .mulw64 imm
  | 0x1A#6 => plain .fmulh64 imm
  | 0x20#6 => plain .divrem imm
  | 0x21#6 => plain .kdivrem imm
  | 0x22#6 => decodeModm imm
  | 0x30#6 => plain .movya imm
  | 0x31#6 => plain .movyb imm
  | 0x32#6 => plain .movza imm
  | 0x33#6 => plain .movzb imm
  | _ => .error .reservedOp

/-- R67, R69: a decoder "reads `w` and applies rule R67, with no other state". -/
def decode (w : CmdWord) : Except Reject Instr :=
  if rsv2Field w ≠ 0#32 then .error .rsv2
  else if rsv1Field w ≠ 0#16 then .error .rsv1
  else if rsv0Field w ≠ 0#2 then .error .rsv0
  else decodeOp (opField w) (immField w)

/-! ## Encoder -/

/-- R66: the opcode map, read from the command to `OP`. -/
def opcode : Instr → BitVec 6
  | .nop => 0x00#6
  | .add => 0x01#6
  | .sub => 0x02#6
  | .inc => 0x03#6
  | .dec => 0x04#6
  | .and => 0x05#6
  | .or => 0x06#6
  | .xor => 0x07#6
  | .not => 0x08#6
  | .shl => 0x09#6
  | .shr => 0x0A#6
  | .eq => 0x0B#6
  | .ne => 0x0C#6
  | .ltu => 0x0D#6
  | .leu => 0x0E#6
  | .gtu => 0x0F#6
  | .geu => 0x10#6
  | .clz => 0x11#6
  | .ctz => 0x12#6
  | .efflen => 0x13#6
  | .ispow2 => 0x14#6
  | .ext _ _ => 0x15#6
  | .mul => 0x18#6
  | .mulw64 => 0x19#6
  | .fmulh64 => 0x1A#6
  | .divrem => 0x20#6
  | .kdivrem => 0x21#6
  | .modm _ => 0x22#6
  | .movya => 0x30#6
  | .movyb => 0x31#6
  | .movza => 0x32#6
  | .movzb => 0x33#6

/-- R63: the bits of the field `W`. -/
def extWidthBits : ExtWidth → BitVec 2
  | .w8 => 0b00#2
  | .w16 => 0b01#2
  | .w32 => 0b10#2
  | .w64 => 0b11#2

/-- R63 to R65: the `IMM8` of a command; `EXT` has `IMM8 = {00000, S, W}` (R101). -/
def immOf : Instr → BitVec 8
  | .ext signed width => 0#5 ++ BitVec.ofBool signed ++ extWidthBits width
  | .modm m => m
  | .nop | .add | .sub | .inc | .dec | .and | .or | .xor | .not | .shl | .shr
  | .eq | .ne | .ltu | .leu | .gtu | .geu | .clz | .ctz | .efflen | .ispow2
  | .mul | .mulw64 | .fmulh64 | .divrem | .kdivrem
  | .movya | .movyb | .movza | .movzb => 0#8

/-- R60, R61: the 64-bit `CMD` value of a command: `RSV2`, `RSV1`, `IMM8`, `RSV0`, `OP`. -/
def encode (i : Instr) : CmdWord :=
  0#32 ++ 0#16 ++ immOf i ++ 0#2 ++ opcode i

/-! ## The opcode table's numbering -/

/-- The instruction the decoder reads from a word numbered as spec/opcode_table.json numbers it: bit 0 is the
least significant bit of the one 64-bit `CMD` value, and every bit above `nbits` is 0. -/
def decodeTableWord (nbits w : Nat) : Option Instr :=
  if w % 2 ^ nbits < 2 ^ 64 then
    match decode (BitVec.ofNat 64 (w % 2 ^ nbits)) with
    | .ok i => some i
    | .error _ => none
  else none

end Sys2Proof
end

