-- ==== Sys2Proof/Machine/State.lean ====
section
/-!
DEFINITION. The state of the machine: the CORE's registers (spec/10_state.md rules R21 to R26 and R30), and beside
them what the model needs of the outside: the accesses each host has still to make (R20, R48, R49), the values
its reads have returned, and the order in which the environment acts.

`CMD` is no field: it "holds no state" (R26). There is no program counter, flag or memory (R27, R28, R40).
The reserved bits 63:2 of `STATUS` are no field either: they are hard-wired to 0 (R32), so a read makes them.
-/

namespace Sys2Proof.Machine

/-- R25: the two bits of `STATUS` that hold state. -/
structure Status where
  /-- Bit 0, `DZ`. -/
  dz : Bool
  /-- Bit 1, `ILL`. -/
  ill : Bool
  deriving DecidableEq, Repr

/-- R13, R41, R42: one host access that has reached the window, by its offset from `BLOCK_BASE` and its width in
bytes. Every width and offset can be written; only those of R42 are admitted. -/
inductive Access where
  /-- `HostRead(off, width)`. -/
  | read (off : Offset) (width : Nat)
  /-- `HostWrite(off, width, v)`. -/
  | write (off : Offset) (width : Nat) (v : Limb)
  deriving DecidableEq, Repr

/-- R20, R49, R200: one host, as the CORE meets it. -/
structure HostPort where
  /-- The accesses this host has still to make, in its own issue order (R48). -/
  todo : List Access
  /-- The values its reads have returned, oldest first. -/
  got : List Limb
  deriving DecidableEq, Repr

/-- What the environment does next. -/
inductive Event where
  /-- R49: the CORE takes the next access of this host (its place in `State.hosts`). -/
  | turn (host : Nat)
  /-- R211: the platform drives the CORE's reset input. -/
  | resetInput
  /-- R202, I15: power is lost and comes back with no reset applied. -/
  | powerLoss
  deriving DecidableEq, Repr

/-- The whole state. `a`, `b`, `y`, `z` and `status` are the CORE's; the rest is the outside's. -/
structure State where
  /-- R21: `A`, the first operand register. -/
  a : Value
  /-- R22: `B`, the second operand register. -/
  b : Value
  /-- R23: `Y`, the primary result register. -/
  y : Value
  /-- R24: `Z`, the secondary result register. -/
  z : Value
  /-- R25: `STATUS`. -/
  status : Status
  /-- R20, R200: the hosts that share the CORE. They have no identifiers the CORE sees; a place in this list is
  the model's own name for one. -/
  hosts : List HostPort
  /-- R49, I14: the interleaving, chosen by the environment: what happens next, soonest first. -/
  events : List Event
  /-- The model's own counter of losses of power: each draws fresh free values (notes/assumptions/6). -/
  draws : Nat
  deriving DecidableEq, Repr

/-- Why the machine stops with a fault: never. R190: "The CORE raises no synchronous exception and takes no trap. It has
no fault output". The type has no constructor, so no step can answer a fault. -/
inductive Fault where
  deriving DecidableEq, Repr

/-- Why a step has no meaning. -/
inductive Refusal where
  /-- Raised by `exec` for a command whose meaning is not written yet (no arm raises it now). Safe. -/
  | notModelled (mnemonic : String)
  /-- R42, I9: raised when the environment gives a turn to a host whose next access is not an aligned 8-byte
  access: "A model gives such an access no step". Safe: no register changes, and other hosts' turns still run. -/
  | accessNotAdmitted
  deriving DecidableEq, Repr

/-- R25: no error recorded; the value every command without an error leaves. -/
def Status.clear : Status := { dz := false, ill := false }

/-- R192: division by zero recorded. -/
def Status.divByZero : Status := { dz := true, ill := false }

/-- R193: illegal word recorded. -/
def Status.illegal : Status := { dz := false, ill := true }

/-- R30, R210: the state after reset. Every register is 0; no host has anything to do and nothing is scheduled, so
the CORE "waits for the first host access" (notes/assumptions/5). -/
def State.reset : State :=
  { a := 0, b := 0, y := 0, z := 0, status := Status.clear, hosts := [], events := [], draws := 0 }

end Sys2Proof.Machine
end

