-- ==== Sys2Proof/Machine/Operands.lean ====
section
/-!
DEFINITION. Limbs, operands and immediates: how a command reads the parts of `A`, `B` and `IMM8`
(spec/00_scope.md rules R10 to R12; spec/30_encoding.md rule R70).
-/

namespace Sys2Proof.Machine

/-- R10: `v.lo = v[63:0]`. -/
def lo (v : Value) : Limb := v.extractLsb' 0 64

/-- R10: `v.hi = v[127:64]`. -/
def hi (v : Value) : Limb := v.extractLsb' 64 64

/-- R10: `{h, l}`, the value with high limb `h` and low limb `l`. -/
def pair (h l : Limb) : Value := h ++ l

/-- R12: `zext_128` of a limb, `{0, x}`. -/
def zextLimb (x : Limb) : Value := pair 0 x

/-- R88: the shift count `n = s64(b.lo)`; `b.hi` is not read. -/
def shiftCount (b : Value) : Int := (lo b).toInt

/-- R122, R123: the 64-bit multiplier `m = b.lo`; `b.hi` is not read. -/
def multiplier (b : Value) : Limb := lo b

/-- R101: the source of `EXT`, `a.lo[k-1:0]`; `a.hi` is not read. -/
def narrowSource (k : Nat) (a : Value) : BitVec k := (lo a).setWidth k

/-- R64: the modulus, an unsigned 8-bit number "with no scaling". -/
def modulus (m : BitVec 8) : Nat := m.toNat

/-- R101: `sext_128(x)` when `S` is 1, `zext_128(x)` otherwise. -/
def extend (signed : Bool) {k : Nat} (x : BitVec k) : Value :=
  if signed then x.signExtend 128 else x.setWidth 128

end Sys2Proof.Machine
end

