-- ==== Sys2Proof/Machine/Flags.lean ====
section
/-!
DEFINITION. Carries, borrows, Boolean results and the `STATUS` word. The CORE keeps no carry, overflow, sign or
zero flag (spec/10_state.md rule R28); a carry or borrow lives only inside one command (R29).
-/

namespace Sys2Proof.Machine

/-- R80: carry out of the low limb, "new_low < old_low". -/
def carryOut (new old : Limb) : Limb := if new < old then 1 else 0

/-- R81: borrow out of the low limb, `new_low > old_low`. -/
def borrowOut (new old : Limb) : Limb := if old < new then 1 else 0

/-- R123: `carry_from(x + y)`, 1 if the exact sum of two limbs reaches `2^64`. -/
def carryFrom (x y : Limb) : Limb := if 2 ^ 64 ≤ x.toNat + y.toNat then 1 else 0

/-- R91 to R96, R100, D14: a Boolean result in `Y`, `zext_128(1 if p else 0)`. -/
def boolValue (p : Bool) : Value := if p then 1 else 0

/-- R97 to R99, D14: a count in `Y`, `zext_128(count)`. -/
def countValue (n : Nat) : Value := BitVec.ofNat 128 n

/-- R25: `STATUS` as a host reads it: `DZ` in bit 0, `ILL` in bit 1, and the hard-wired zeros 63:2. -/
def statusWord (st : Status) : Limb :=
  0#62 ++ BitVec.ofBool st.ill ++ BitVec.ofBool st.dz

end Sys2Proof.Machine
end

