-- ==== Sys2Proof/Machine/Ops.lean ====
section
/-!
DEFINITION. The shared operations: how a command ends, how an error is recorded, and how the registers of the
window are read and written (spec/30_encoding.md rule R71; spec/10_state.md rules R31 and R32;
spec/60_exceptions.md rules R190 to R194).

The CORE takes no trap, so there is no exception entry and no return from one (R190, R196). What stands in their
place is the recording of an error in `STATUS`: `divideByZero` (R192) and `recordIllegal` (R193).
-/

namespace Sys2Proof.Machine

/-! ## How a command ends (R71) -/

/-- R71: a command that writes no register but `STATUS`. -/
def finish (s : State) : Host.Outcome State Fault Refusal :=
  .next { s with status := Status.clear }

/-- R71, R23: a command whose one result goes to `Y`. -/
def finishY (v : Value) (s : State) : Host.Outcome State Fault Refusal :=
  .next { s with y := v, status := Status.clear }

/-- R71, R23, R24: a division with a result, quotient to `Y` and remainder to `Z`. -/
def finishYZ (q r : Value) (s : State) : Host.Outcome State Fault Refusal :=
  .next { s with y := q, z := r, status := Status.clear }

/-- R71, R21: a move into `A`. -/
def finishA (v : Value) (s : State) : Host.Outcome State Fault Refusal :=
  .next { s with a := v, status := Status.clear }

/-- R71, R22: a move into `B`. -/
def finishB (v : Value) (s : State) : Host.Outcome State Fault Refusal :=
  .next { s with b := v, status := Status.clear }

/-! ## Error conditions (R191) -/

/-- R192: `STATUS.DZ <- 1 ; STATUS.ILL <- 0`; `Y`, `Z`, `A` and `B` keep their values. -/
def divideByZero (s : State) : Host.Outcome State Fault Refusal :=
  .next { s with status := Status.divByZero }

/-- R193: `STATUS.ILL <- 1 ; STATUS.DZ <- 0`; `A`, `B`, `Y` and `Z` are unchanged. -/
def recordIllegal (s : State) : Host.Outcome State Fault Refusal :=
  .next { s with status := Status.illegal }

/-- R135, R150: the end of a division, `none` being the "empty result" of a zero divisor. -/
def finishDivision (result : Option (Value × Value)) (s : State) : Host.Outcome State Fault Refusal :=
  match result with
  | none => divideByZero s
  | some (q, r) => finishYZ q r s

/-! ## The register window (R31, R32) -/

/-- R31: the registers of the window. -/
inductive WindowReg where
  | aLo
  | aHi
  | bLo
  | bHi
  | yLo
  | yHi
  | zLo
  | zHi
  | status
  | cmd
  deriving DecidableEq, Repr

/-- R31: the register map. -/
def regOffset : WindowReg → Offset
  | .aLo => 0x00#8
  | .aHi => 0x08#8
  | .bLo => 0x10#8
  | .bHi => 0x18#8
  | .yLo => 0x20#8
  | .yHi => 0x28#8
  | .zLo => 0x30#8
  | .zHi => 0x38#8
  | .status => 0x40#8
  | .cmd => 0x48#8

/-- R31: the register map read the other way; `none` is a reserved offset (or one inside a register, which no
admitted access names). -/
def regAt (off : Offset) : Option WindowReg :=
  match off with
  | 0x00#8 => some .aLo
  | 0x08#8 => some .aHi
  | 0x10#8 => some .bLo
  | 0x18#8 => some .bHi
  | 0x20#8 => some .yLo
  | 0x28#8 => some .yHi
  | 0x30#8 => some .zLo
  | 0x38#8 => some .zHi
  | 0x40#8 => some .status
  | 0x48#8 => some .cmd
  | _ => none

/-- R42: "The only admitted host access is 8 bytes wide at an offset that is a multiple of 8." -/
def admitted : Access → Bool
  | .read off width => decide (width = Config.accessBytes) && decide (off.toNat % Config.accessBytes = 0)
  | .write off width _ => decide (width = Config.accessBytes) && decide (off.toNat % Config.accessBytes = 0)

/-- R31, R32: the 64 bits a host reads of a register; `CMD` reads as 0. -/
def readReg (r : WindowReg) (s : State) : Limb :=
  match r with
  | .aLo => lo s.a
  | .aHi => hi s.a
  | .bLo => lo s.b
  | .bHi => hi s.b
  | .yLo => lo s.y
  | .yHi => hi s.y
  | .zLo => lo s.z
  | .zHi => hi s.z
  | .status => statusWord s.status
  | .cmd => 0

/-- R32: a host read of a reserved offset returns 0. -/
def readWindow (off : Offset) (s : State) : Limb :=
  match regAt off with
  | some r => readReg r s
  | none => 0

/-- R32: a host write to a register that takes no command: `A` and `B` keep the 64 bits in the named limb, and a
write to a read-only register is ignored. (`CMD` is written by `Access.lean`'s `issueCommand`, never here.) -/
def writeReg (r : WindowReg) (v : Limb) (s : State) : State :=
  match r with
  | .aLo => { s with a := pair (hi s.a) v }
  | .aHi => { s with a := pair v (lo s.a) }
  | .bLo => { s with b := pair (hi s.b) v }
  | .bHi => { s with b := pair v (lo s.b) }
  | .yLo | .yHi | .zLo | .zHi | .status | .cmd => s

/-! ## Reset and power (R202, R210, R211) -/

/-- R210, R211: the reset input puts every register of the CORE in its reset state; what the hosts have still to
do, and what they have read, is not the CORE's. -/
def platformReset (s : State) : State :=
  { s with a := State.reset.a, b := State.reset.b, y := State.reset.y, z := State.reset.z,
           status := State.reset.status }

/-- R202, I15: after a loss of power without a reset every register holds "any value": six fresh free values
(notes/assumptions/6). -/
def losePower (s : State) : State :=
  { s with a := Config.valueAfterPowerLoss (4 * s.draws), b := Config.valueAfterPowerLoss (4 * s.draws + 1),
           y := Config.valueAfterPowerLoss (4 * s.draws + 2), z := Config.valueAfterPowerLoss (4 * s.draws + 3),
           status := { dz := Config.flagAfterPowerLoss (2 * s.draws),
                       ill := Config.flagAfterPowerLoss (2 * s.draws + 1) },
           draws := s.draws + 1 }

end Sys2Proof.Machine
end

