-- ==== Sys2Proof/Machine/Control.lean ====
section
/-!
DEFINITION. `NOP` and the register moves (spec/45_control.md rules R180 to R184).
-/

namespace Sys2Proof.Machine

/-- R180: writes `STATUS` only, so it clears a `DZ` or `ILL` left by the previous command. -/
def execNop (s : State) : Host.Outcome State Fault Refusal := finish s

/-- R181: `A <- Y`. -/
def execMovya (s : State) : Host.Outcome State Fault Refusal := finishA s.y s

/-- R182: `B <- Y`. -/
def execMovyb (s : State) : Host.Outcome State Fault Refusal := finishB s.y s

/-- R183: `A <- Z`. -/
def execMovza (s : State) : Host.Outcome State Fault Refusal := finishA s.z s

/-- R184: `B <- Z`. -/
def execMovzb (s : State) : Host.Outcome State Fault Refusal := finishB s.z s

end Sys2Proof.Machine
end

