-- ==== Sys2Proof/Machine/Limb.lean ====
section
/-!
DEFINITION. The adder, subtractor, shifter, bitwise, comparison, count and construction unit
(spec/40_limb.md rules R80 to R101). The unit's functions come first, limb by limb as the rules give them; the
meaning of each command is one line over its function.
-/

namespace Sys2Proof.Machine

/-! ## Adder and subtractor -/

/-- R80: two-limb carry-propagate addition. -/
def addLimbs (a b : Value) : Value :=
  let l := lo a + lo b
  let c := carryOut l (lo a)
  pair (hi a + hi b + c) l

/-- R81: two-limb borrow-propagate subtraction. -/
def subLimbs (a b : Value) : Value :=
  let l := lo a - lo b
  let w := borrowOut l (lo a)
  pair (hi a - hi b - w) l

/-! ## Shifter -/

/-- R89: logical left shift across the two limbs by a signed count. -/
def shlLimbs (a : Value) (n : Int) : Value :=
  if n ≤ 0 then a
  else if 128 ≤ n then 0
  else if n < 64 then
    pair ((hi a <<< n.toNat) ||| (lo a >>> (64 - n.toNat))) (lo a <<< n.toNat)
  else pair (lo a <<< (n.toNat - 64)) 0

/-- R90: logical right shift across the two limbs by a signed count. -/
def shrLimbs (a : Value) (n : Int) : Value :=
  if n ≤ 0 then a
  else if 128 ≤ n then 0
  else if n < 64 then
    pair (hi a >>> n.toNat) ((lo a >>> n.toNat) ||| (hi a <<< (64 - n.toNat)))
  else pair 0 (hi a >>> (n.toNat - 64))

/-! ## Comparisons, "unsigned lexicographic on (high,low)" -/

/-- R91. -/
def eqLimbs (a b : Value) : Bool := decide (hi a = hi b) && decide (lo a = lo b)

/-- R92. -/
def neLimbs (a b : Value) : Bool := decide (hi a ≠ hi b) || decide (lo a ≠ lo b)

/-- R93. -/
def ltuLimbs (a b : Value) : Bool := decide (hi a < hi b) || (decide (hi a = hi b) && decide (lo a < lo b))

/-- R94. -/
def leuLimbs (a b : Value) : Bool := decide (hi a < hi b) || (decide (hi a = hi b) && decide (lo a ≤ lo b))

/-- R95. -/
def gtuLimbs (a b : Value) : Bool := decide (hi b < hi a) || (decide (hi a = hi b) && decide (lo b < lo a))

/-- R96. -/
def geuLimbs (a b : Value) : Bool := decide (hi b < hi a) || (decide (hi a = hi b) && decide (lo b ≤ lo a))

/-! ## Counts -/

/-- R14: zero bits from bit `n - 1` down to the first one bit. -/
def leadingZeros {w : Nat} (v : BitVec w) : Nat → Nat
  | 0 => 0
  | n + 1 => if v.getLsbD n then 0 else leadingZeros v n + 1

/-- R14: zero bits from bit `i` up, over `n` bits, to the first one bit. -/
def trailingZeros {w : Nat} (v : BitVec w) (i : Nat) : Nat → Nat
  | 0 => 0
  | n + 1 => if v.getLsbD i then 0 else trailingZeros v (i + 1) n + 1

/-- R14: `clz64(x)`, with `clz64(0) = 64`. -/
def clz64 (x : Limb) : Nat := leadingZeros x 64

/-- R98: `ctz64(x)`, with `ctz64(0) = 64`. -/
def ctz64 (x : Limb) : Nat := trailingZeros x 0 64

/-- R97: `clz64(a.hi)` when `a.hi != 0`, else `64 + clz64(a.lo)`. -/
def clzLimbs (a : Value) : Nat := if hi a ≠ 0 then clz64 (hi a) else 64 + clz64 (lo a)

/-- R98: `ctz64(a.lo)` when `a.lo != 0`, else `64 + ctz64(a.hi)`. -/
def ctzLimbs (a : Value) : Nat := if lo a ≠ 0 then ctz64 (lo a) else 64 + ctz64 (hi a)

/-- R99: `128 - clz128(a)`. -/
def effLen (a : Value) : Nat := 128 - clzLimbs a

/-- R14, R100: `v != 0 && (v & (v-1)) == 0`, with the wrapping decrement of R83. -/
def isPow2 (v : Value) : Bool := decide (v ≠ 0) && decide (v &&& subLimbs v 1 = 0)

/-! ## Meanings -/

/-- R80. -/
def execAdd (s : State) : Host.Outcome State Fault Refusal := finishY (addLimbs s.a s.b) s

/-- R81. -/
def execSub (s : State) : Host.Outcome State Fault Refusal := finishY (subLimbs s.a s.b) s

/-- R82: "computed as `ADD` with `b = 1`". -/
def execInc (s : State) : Host.Outcome State Fault Refusal := finishY (addLimbs s.a 1) s

/-- R83: "computed as `SUB` with `b = 1`". -/
def execDec (s : State) : Host.Outcome State Fault Refusal := finishY (subLimbs s.a 1) s

/-- R84. -/
def execAnd (s : State) : Host.Outcome State Fault Refusal :=
  finishY (pair (hi s.a &&& hi s.b) (lo s.a &&& lo s.b)) s

/-- R85. -/
def execOr (s : State) : Host.Outcome State Fault Refusal :=
  finishY (pair (hi s.a ||| hi s.b) (lo s.a ||| lo s.b)) s

/-- R86. -/
def execXor (s : State) : Host.Outcome State Fault Refusal :=
  finishY (pair (hi s.a ^^^ hi s.b) (lo s.a ^^^ lo s.b)) s

/-- R87. -/
def execNot (s : State) : Host.Outcome State Fault Refusal :=
  finishY (pair (~~~(hi s.a)) (~~~(lo s.a))) s

/-- R89. -/
def execShl (s : State) : Host.Outcome State Fault Refusal := finishY (shlLimbs s.a (shiftCount s.b)) s

/-- R90. -/
def execShr (s : State) : Host.Outcome State Fault Refusal := finishY (shrLimbs s.a (shiftCount s.b)) s

/-- R91. -/
def execEq (s : State) : Host.Outcome State Fault Refusal := finishY (boolValue (eqLimbs s.a s.b)) s

/-- R92. -/
def execNe (s : State) : Host.Outcome State Fault Refusal := finishY (boolValue (neLimbs s.a s.b)) s

/-- R93. -/
def execLtu (s : State) : Host.Outcome State Fault Refusal := finishY (boolValue (ltuLimbs s.a s.b)) s

/-- R94. -/
def execLeu (s : State) : Host.Outcome State Fault Refusal := finishY (boolValue (leuLimbs s.a s.b)) s

/-- R95. -/
def execGtu (s : State) : Host.Outcome State Fault Refusal := finishY (boolValue (gtuLimbs s.a s.b)) s

/-- R96. -/
def execGeu (s : State) : Host.Outcome State Fault Refusal := finishY (boolValue (geuLimbs s.a s.b)) s

/-- R97. -/
def execClz (s : State) : Host.Outcome State Fault Refusal := finishY (countValue (clzLimbs s.a)) s

/-- R98. -/
def execCtz (s : State) : Host.Outcome State Fault Refusal := finishY (countValue (ctzLimbs s.a)) s

/-- R99. -/
def execEfflen (s : State) : Host.Outcome State Fault Refusal := finishY (countValue (effLen s.a)) s

/-- R100. -/
def execIspow2 (s : State) : Host.Outcome State Fault Refusal := finishY (boolValue (isPow2 s.a)) s

/-- R101. -/
def execExt (signed : Bool) (width : ExtWidth) (s : State) : Host.Outcome State Fault Refusal :=
  finishY (extend signed (narrowSource width.bits s.a)) s

end Sys2Proof.Machine
end

