-- ==== Sys2Proof/Machine/Divrem.lean ====
section
/-!
DEFINITION. The generic binary long-division engine (spec/42_divrem.md rules R135 and R136), transcribed with the
shifts of R89 and R90 and the comparison and subtraction of R93 and R81, as R136 says.
-/

namespace Sys2Proof.Machine

/-- R136: `n` iterations of the restoring division, on the running quotient, running remainder and normalized
divisor. -/
def restoring : Nat → Value → Value → Value → Value × Value
  | 0, q, r, _ => (q, r)
  | n + 1, q, r, d =>
    if ltuLimbs r d then restoring n (shlLimbs q 1) r (shrLimbs d 1)
    else restoring n (shlLimbs q 1 ||| 1) (subLimbs r d) (shrLimbs d 1)

/-- R136: the shift that aligns the divisor's leading bit with the dividend's. -/
def alignShift (a b : Value) : Nat := effLen a - effLen b

/-- R136: the general case, `shift + 1` iterations. -/
def longDivision (a b : Value) : Value × Value :=
  restoring (alignShift a b + 1) 0 a (shlLimbs b (alignShift a b))

/-- R136, R152: division by a power of two, "shift + mask". -/
def pow2Division (a b : Value) : Value × Value :=
  (shrLimbs a (ctzLimbs b), a &&& subLimbs b 1)

/-- R136: `divrem(a, b)`, its cases "tried in this order, first match wins". `none` is EMPTY. -/
def divrem (a b : Value) : Option (Value × Value) :=
  if b = 0 then none
  else if ltuLimbs a b then some (0, a)
  else if a = b then some (1, 0)
  else if b = 1 then some (a, 0)
  else if isPow2 b then some (pow2Division a b)
  else some (longDivision a b)

/-- R135. -/
def execDivrem (s : State) : Host.Outcome State Fault Refusal := finishDivision (divrem s.a s.b) s

end Sys2Proof.Machine
end

