-- ==== Sys2Proof/Machine/Multiply.lean ====
section
/-!
DEFINITION. The multiplier (spec/41_multiply.md rules R120 to R125): the multiply-high primitive, the truncating
128×128→128 product, the 64×64→128 product and the 128×64 multiply-high `fullmult_times_uint64`.
-/

namespace Sys2Proof.Machine

/-- R14, R120: `mulhi64(a, b) = (a·b) div 2^64`, "a model uses the exact value". -/
def mulhi64 (a b : Limb) : Limb := BitVec.ofNat 64 (a.toNat * b.toNat / 2 ^ 64)

/-- R120: the portable form, a 4-way 32-bit decomposition. No command uses it; it is the second implementation the
source allows, to be held against `mulhi64`. -/
def mulhiPortable (a b : Limb) : Limb :=
  let a1 := a.toNat / 2 ^ 32
  let a0 := a.toNat % 2 ^ 32
  let b1 := b.toNat / 2 ^ 32
  let b0 := b.toNat % 2 ^ 32
  let p00 := a0 * b0
  let p01 := a0 * b1
  let p10 := a1 * b0
  let p11 := a1 * b1
  let mid := p00 / 2 ^ 32 + p01 % 2 ^ 32 + p10 % 2 ^ 32
  BitVec.ofNat 64 (p11 + p01 / 2 ^ 32 + p10 / 2 ^ 32 + mid / 2 ^ 32)

/-- R122: the full 64×64→128 product, from its two halves. -/
def mulWide (x m : Limb) : Value := pair (mulhi64 x m) (x * m)

/-- R121: "a 64×64→128 split-half multiply-accumulate". -/
def mulLimbs (a b : Value) : Value :=
  let p0 := mulWide (lo a) (lo b)
  let cross := lo a * hi b + hi a * lo b
  pair (hi p0 + cross) (lo p0)

/-- R123: bits 191:128 of the 192-bit product `a · m`, as a limb. -/
def fmulHigh (a : Value) (m : Limb) : Limb :=
  let l1 := mulhi64 (lo a) m
  let h0 := hi a * m
  let h1 := mulhi64 (hi a) m
  h1 + carryFrom l1 h0

/-- R121. -/
def execMul (s : State) : Host.Outcome State Fault Refusal := finishY (mulLimbs s.a s.b) s

/-- R122: `a.hi` and `b.hi` are not read. -/
def execMulw64 (s : State) : Host.Outcome State Fault Refusal := finishY (mulWide (lo s.a) (multiplier s.b)) s

/-- R123: `Y.hi` is 0. -/
def execFmulh64 (s : State) : Host.Outcome State Fault Refusal :=
  finishY (zextLimb (fmulHigh s.a (multiplier s.b))) s

end Sys2Proof.Machine
end

