-- ==== Sys2Proof/Machine/Knuth.lean ====
section
/-!
DEFINITION. The optimized division engine (spec/43_knuth_divrem.md rules R150 to R160): the dispatch over eight
paths and Knuth's Algorithm D, transcribed path by path. Arithmetic the rules do on mathematical integers (R12) is
done on `Nat`; which path ran is not observable (R163).
-/

namespace Sys2Proof.Machine

/-! ## Paths 4 and 5 (R153) -/

/-- R153: divide in stages, first stage first; remainders are combined as
"`final_remainder = inner_remainder·outer_divisor + outer_remainder`". -/
def chained (a : Value) : List Value → Value × Value
  | [] => (a, 0)
  | d :: ds => ((chained (a / d) ds).1, mulLimbs (chained (a / d) ds).2 d + a % d)

/-- R151, R153: the stages of the recognized powers of 10, 3 and 5; `none` for every other divisor. -/
def stagesOf (b : Value) : Option (List Value) :=
  if b = 10 then some [2, 5]
  else if b = 100 then some [4, 25]
  else if b = 1000 then some [8, 125]
  else if b = 3 then some [3]
  else if b = 9 then some [3, 3]
  else if b = 27 then some [3, 3, 3]
  else if b = 5 then some [5]
  else if b = 25 then some [5, 5]
  else if b = 125 then some [5, 5, 5]
  else none

/-! ## Paths 6 and 7 (R154, R155) -/

/-- R154: "native single-limb division". -/
def singleLimb (a b : Value) : Value × Value :=
  (pair 0 (lo a / lo b), pair 0 (lo a % lo b))

/-- R155: a two-limb dividend by a one-limb divisor, in two steps; `r1 < b.lo`, so `ql` fits in a limb. -/
def twoByOne (a b : Value) : Value × Value :=
  let qh := hi a / lo b
  let r1 := hi a % lo b
  let n := r1.toNat * 2 ^ 64 + (lo a).toNat
  (pair qh (BitVec.ofNat 64 (n / (lo b).toNat)), pair 0 (BitVec.ofNat 64 (n % (lo b).toNat)))

/-! ## Path 8, Algorithm D (R156 to R160) -/

/-- R156: what step 1 leaves: the shift `s`, the normalized divisor `v`, the extension word `u2` and the normalized
dividend `u`. -/
structure Normalized where
  s : Nat
  v : Value
  u2 : Limb
  u : Value
  deriving DecidableEq, Repr

/-- R156, step 1: normalize. -/
def normalize (a b : Value) : Normalized :=
  let s := clz64 (hi b)
  { s := s
    v := shlLimbs b s
    u2 := if s = 0 then 0 else hi a >>> (64 - s)
    u := shlLimbs a s }

/-- R157, step 2: the trial digit `q̂` and its remainder `r̂`, "using the native double-width divide". -/
def trialDigit (x : Normalized) : Nat × Nat :=
  let n := x.u2.toNat * 2 ^ 64 + (hi x.u).toNat
  (n / (hi x.v).toNat, n % (hi x.v).toNat)

/-- R157, step 2: Knuth's correction loop, at most the given number of times. -/
def correctDigit (x : Normalized) : Nat → Nat × Nat → Nat × Nat
  | 0, (q, r) => (q, r)
  | n + 1, (q, r) =>
    if r * 2 ^ 64 + (lo x.u).toNat < q * (lo x.v).toNat then
      if 2 ^ 64 ≤ r + (hi x.v).toNat then (q - 1, r + (hi x.v).toNat)
      else correctDigit x n (q - 1, r + (hi x.v).toNat)
    else (q, r)

/-- R157: the digit after step 2, as a limb (R161: it is below `2^64`). -/
def estimatedDigit (x : Normalized) : Limb :=
  BitVec.ofNat 64 (correctDigit x Config.correctionBound (trialDigit x)).1

/-- R158: the 192-bit dividend `u2·2^128 + u`. -/
def wideDividend (x : Normalized) : BitVec 192 := x.u2 ++ x.u

/-- R158, step 3: the 192-bit product `P_hi·2^128 + P_lo`, from `MUL` and `FMULH64`. -/
def wideProduct (x : Normalized) (q : Limb) : BitVec 192 :=
  fmulHigh x.v q ++ mulLimbs x.v (zextLimb q)

/-- R158: whether the multiply-and-subtract borrows. -/
def borrows (x : Normalized) (q : Limb) : Bool := decide (wideDividend x < wideProduct x q)

/-- R159, step 4: the digit and the difference after the add-back, which runs only if step 3 borrowed. -/
def addBack (x : Normalized) (q : Limb) : Limb × BitVec 192 :=
  let d := wideDividend x - wideProduct x q
  if borrows x q then (q - 1, d + x.v.setWidth 192) else (q, d)

/-- R156 to R160: path 8, with step 5's denormalization. -/
def algorithmD (a b : Value) : Value × Value :=
  let x := normalize a b
  let p := addBack x (estimatedDigit x)
  (zextLimb p.1, shrLimbs (p.2.setWidth 128) x.s)

/-! ## Dispatch (R151) -/

/-- R151: `kdivrem(a, b)`, "Dispatch order (first match wins)". `none` is EMPTY. -/
def kdivrem (a b : Value) : Option (Value × Value) :=
  if b = 0 then none
  else if ltuLimbs a b then some (0, a)
  else if isPow2 b then some (pow2Division a b)
  else
    match stagesOf b with
    | some stages => some (chained a stages)
    | none =>
      if hi a = 0 ∧ hi b = 0 then some (singleLimb a b)
      else if hi b = 0 then some (twoByOne a b)
      else some (algorithmD a b)

/-- R150. -/
def execKdivrem (s : State) : Host.Outcome State Fault Refusal := finishDivision (kdivrem s.a s.b) s

end Sys2Proof.Machine
end

