-- ==== Sys2Proof/Machine/Modm.lean ====
section
/-!
DEFINITION. The fixed-modulus reduction unit (spec/44_modm.md rules R170 to R173). The meaning of `MODM` is R170's
remainder. The strategy classes of R171 are written beside it, to be held against it: no class is observable.
-/

namespace Sys2Proof.Machine

/-- R170: `{0, a mod M}`. -/
def modReduce (a : Value) (m : Nat) : Value := zextLimb (BitVec.ofNat 64 (a.toNat % m))

/-- R171: the strategy classes. -/
inductive ModClass where
  | powerOfTwo
  | smallPower
  | enumerated
  | fallback
  deriving DecidableEq, Repr

/-- R171: the class of a modulus, in the order of §3, first match wins (D30). -/
def modClass (m : Nat) : ModClass :=
  if m ∈ [2, 4, 8, 16, 32] then .powerOfTwo
  else if m ∈ [3, 9, 27, 5, 25, 7, 49, 10] then .smallPower
  else if m ∈ [3, 5, 6, 7, 9, 10, 11, 12, 13, 14, 15, 17, 18, 19, 20, 23, 29, 31, 37, 41, 43, 47, 53, 59, 61] then
    .enumerated
  else .fallback

/-- R171: "bitmask of `log2(M)` bits", `a.lo & (M - 1)`. -/
def modMask (a : Value) (m : Nat) : Nat := (lo a &&& BitVec.ofNat 64 (m - 1)).toNat

/-- R172: the congruence of `2^64 mod M`: `((a.hi mod M) · c + (a.lo mod M)) mod M`. -/
def modCongruence (a : Value) (m : Nat) : Nat :=
  ((hi a).toNat % m * (2 ^ 64 % m) + (lo a).toNat % m) % m

/-- R171: the fallback, "full `divrem`"; the remainder of a division that has a result. -/
def modDivrem (a : Value) (m : Nat) : Nat :=
  match divrem a (BitVec.ofNat 128 m) with
  | some (_, r) => r.toNat
  | none => 0

/-- R171: the reduction by the class of the modulus. -/
def modByClass (a : Value) (m : Nat) : Nat :=
  match modClass m with
  | .powerOfTwo => modMask a m
  | .smallPower => modCongruence a m
  | .enumerated => modCongruence a m
  | .fallback => modDivrem a m

/-- R170: `b` is not read and `Z` is not written. -/
def execModm (m : BitVec 8) (s : State) : Host.Outcome State Fault Refusal :=
  finishY (modReduce s.a (modulus m)) s

end Sys2Proof.Machine
end

