-- ==== Sys2Proof/Machine/Dispatch.lean ====
section
/-! DEFINITION. One arm per command of spec/opcode_table.json (R66): the meaning of each accepted command (R71). -/

namespace Sys2Proof.Machine

def exec (i : Instr) (s : State) : Host.Outcome State Fault Refusal :=
  match i with
  | .nop => Sys2Proof.Machine.execNop s
  | .add => Sys2Proof.Machine.execAdd s
  | .sub => Sys2Proof.Machine.execSub s
  | .inc => Sys2Proof.Machine.execInc s
  | .dec => Sys2Proof.Machine.execDec s
  | .and => Sys2Proof.Machine.execAnd s
  | .or => Sys2Proof.Machine.execOr s
  | .xor => Sys2Proof.Machine.execXor s
  | .not => Sys2Proof.Machine.execNot s
  | .shl => Sys2Proof.Machine.execShl s
  | .shr => Sys2Proof.Machine.execShr s
  | .eq => Sys2Proof.Machine.execEq s
  | .ne => Sys2Proof.Machine.execNe s
  | .ltu => Sys2Proof.Machine.execLtu s
  | .leu => Sys2Proof.Machine.execLeu s
  | .gtu => Sys2Proof.Machine.execGtu s
  | .geu => Sys2Proof.Machine.execGeu s
  | .clz => Sys2Proof.Machine.execClz s
  | .ctz => Sys2Proof.Machine.execCtz s
  | .efflen => Sys2Proof.Machine.execEfflen s
  | .ispow2 => Sys2Proof.Machine.execIspow2 s
  | .ext signed width => Sys2Proof.Machine.execExt signed width s
  | .mul => Sys2Proof.Machine.execMul s
  | .mulw64 => Sys2Proof.Machine.execMulw64 s
  | .fmulh64 => Sys2Proof.Machine.execFmulh64 s
  | .divrem => Sys2Proof.Machine.execDivrem s
  | .kdivrem => Sys2Proof.Machine.execKdivrem s
  | .modm m => Sys2Proof.Machine.execModm m s
  | .movya => Sys2Proof.Machine.execMovya s
  | .movyb => Sys2Proof.Machine.execMovyb s
  | .movza => Sys2Proof.Machine.execMovza s
  | .movzb => Sys2Proof.Machine.execMovzb s

end Sys2Proof.Machine
end

