-- ==== Sys2Proof/Machine/Access.lean ====
section
/-!
DEFINITION. Host accesses and events: what happens when the CORE takes one access, and what the environment's
next event does (spec/20_memory.md rules R42, R47 to R49; spec/30_encoding.md rule R71). `step` only calls
`takeEvent`.
-/

namespace Sys2Proof.Machine

/-- R26, R71: a host write of `w` to `CMD`: an accepted word runs its command, any other records `ILL`. -/
def issueCommand (w : CmdWord) (s : State) : Host.Outcome State Fault Refusal :=
  match decode w with
  | .ok i => exec i s
  | .error _ => recordIllegal s

/-- R31, R32: a host write at an admitted offset; one to a reserved offset is ignored. -/
def writeWindow (off : Offset) (v : Limb) (s : State) : Host.Outcome State Fault Refusal :=
  match regAt off with
  | some .cmd => issueCommand v s
  | some r => .next (writeReg r v s)
  | none => .next s

/-- The host at place `h` has made its access: what it has still to do and what it has read are these. -/
def setPort (h : Nat) (todo : List Access) (got : List Limb) (s : State) : State :=
  { s with hosts := s.hosts.set h { todo := todo, got := got } }

/-- R42, R48: the CORE takes the access `acc` of the host at `h`, which leaves it `more` to do. An access that is not
admitted has no step. -/
def performAccess (h : Nat) (acc : Access) (more : List Access) (got : List Limb) (s : State) :
    Host.Outcome State Fault Refusal :=
  if admitted acc then
    match acc with
    | .read off _ => .next (setPort h more (got ++ [readWindow off s]) s)
    | .write off _ v => writeWindow off v (setPort h more got s)
  else .refused .accessNotAdmitted

/-- R48, R49: a turn of the host at place `h`. Where there is no such host, or it has nothing left to do, the CORE
takes nothing. -/
def takeTurn (h : Nat) (s : State) : Host.Outcome State Fault Refusal :=
  match s.hosts[h]? with
  | none => .next s
  | some { todo := [], got := _ } => .next s
  | some { todo := acc :: more, got := got } => performAccess h acc more got s

/-- R20, R202, R210: the next event; with none the CORE is idle and "waits for the first host access". -/
def takeEvent (s : State) : Host.Outcome State Fault Refusal :=
  match s.events with
  | [] => .next s
  | .turn h :: rest => takeTurn h { s with events := rest }
  | .resetInput :: rest => .next (platformReset { s with events := rest })
  | .powerLoss :: rest => .next (losePower { s with events := rest })

/-- A host access put in front of everything else: the first host makes it, and its turn is the next event. -/
def enqueueFirst (acc : Access) (s : State) : State :=
  match s.hosts with
  | [] => { s with hosts := [{ todo := [acc], got := [] }], events := .turn 0 :: s.events }
  | p :: ps => { s with hosts := { p with todo := acc :: p.todo } :: ps, events := .turn 0 :: s.events }

/-- The platform connects one more host to the CORE (R49, R200); it has nothing to do yet. -/
def attachHost (s : State) : State := { s with hosts := s.hosts ++ [{ todo := [], got := [] }] }

/-- The outside world's move: the host at place `h` issues one more access, and the environment lets the CORE take
it after all that is scheduled already. -/
def issueAccess (h : Nat) (acc : Access) (s : State) : State :=
  { s with hosts := s.hosts.modify h (fun p => { p with todo := p.todo ++ [acc] }),
           events := s.events ++ [.turn h] }

/-- R26, R60: the host access that issues the command word `w`. -/
def commandAccess (w : CmdWord) : Access := .write (regOffset .cmd) Config.accessBytes w

end Sys2Proof.Machine
end

