-- ==== Sys2Proof/Machine/Step.lean ====
section
/-!
DEFINITION. One step of the machine: one event of the environment, which is one atomic host access (spec/10_state.md
rule R20; spec/20_memory.md rule R48), a reset, a loss of power, or nothing.
-/

namespace Sys2Proof.Machine

/-- R20, R48: one step. -/
def step (s : State) : Host.Outcome State Fault Refusal := takeEvent s

/-- The CORE fetches nothing (R27, R51): "A command word reaches the CORE only as the value of a `CMD` write". So the
instruction whose bits are `w` is placed as the next host access, a write of it to `CMD` (notes/assumptions/5). -/
def State.withFetchWord (s : State) (nbits w : Nat) : State :=
  enqueueFirst (commandAccess (BitVec.ofNat 64 (w % 2 ^ nbits))) s

end Sys2Proof.Machine
end

