-- ==== Sys2Proof/Machine/HostProgram.lean ====
section
/-!
DEFINITION. The lines of a host program and the accesses each one makes (spec/30_encoding.md rules R72 and R73). The text
itself (numerals, comments) is not modelled: a line is its parsed form.
-/

namespace Sys2Proof.Machine

/-- R72, R73: one line, the pseudo-instructions included. -/
inductive Line where
  /-- `WR <reg>, <imm64>` -/
  | wr (reg : WindowReg) (imm : Limb)
  /-- `RD <reg>` -/
  | rd (reg : WindowReg)
  /-- `CMD <mnemonic>`, with the immediate of `EXT` or `MODM` -/
  | cmd (i : Instr)
  /-- `CMD.RAW <imm64>` -/
  | cmdRaw (w : CmdWord)
  /-- `LD A, <imm128>` -/
  | ldA (imm : Value)
  /-- `LD B, <imm128>` -/
  | ldB (imm : Value)
  /-- `RD128 Y` -/
  | rdY
  /-- `RD128 Z` -/
  | rdZ
  /-- `LDS A, <imm64>` -/
  | ldsA (imm : Limb)
  /-- `LDU A, <imm64>` -/
  | lduA (imm : Limb)
  deriving DecidableEq, Repr

/-- R72: `HostWrite(off(reg), 8, v)`. -/
def writeAccess (reg : WindowReg) (v : Limb) : Access := .write (regOffset reg) Config.accessBytes v

/-- R72: `HostRead(off(reg), 8)`. -/
def readAccess (reg : WindowReg) : Access := .read (regOffset reg) Config.accessBytes

/-- R72, R73: the accesses a line makes, in order. -/
def lineAccesses : Line → List Access
  | .wr reg imm => [writeAccess reg imm]
  | .rd reg => [readAccess reg]
  | .cmd i => [commandAccess (encode i)]
  | .cmdRaw w => [commandAccess w]
  | .ldA imm => [writeAccess .aLo (lo imm), writeAccess .aHi (hi imm)]
  | .ldB imm => [writeAccess .bLo (lo imm), writeAccess .bHi (hi imm)]
  | .rdY => [readAccess .yLo, readAccess .yHi]
  | .rdZ => [readAccess .zLo, readAccess .zHi]
  | .ldsA imm => [writeAccess .aLo imm, commandAccess (encode (.ext true .w64)), commandAccess (encode .movya)]
  | .lduA imm => [writeAccess .aLo imm, writeAccess .aHi 0]

/-- The accesses of a whole host program, without the host's own control flow (R185). -/
def programAccesses (lines : List Line) : List Access := lines.flatMap lineAccesses

/-- A state in which the host at place `h` alone has these accesses to make, one turn after another, and nothing else
is scheduled. -/
def oneHost (accs : List Access) (s : State) : State :=
  { s with hosts := [{ todo := accs, got := [] }], events := accs.map (fun _ => .turn 0) }

end Sys2Proof.Machine
end

