-- ==== Sys2Proof/Machine/Window.lean ====
section
/-!
DEFINITION. The window as the host bus sees it: where it lies in the host's address space (spec/20_memory.md rule R41)
and in what order the bytes of a register stand (R43 to R45). `BLOCK_BASE` and `HOST_BYTE_ORDER` are arguments here
(R9: "A model takes `HOST_BYTE_ORDER` and `BLOCK_BASE` as arguments"); the machine's own are `Config.blockBase` and
`Config.hostByteOrder`, which stay open. No command depends on either.
-/

namespace Sys2Proof.Machine

/-! ## Addresses (R41) -/

/-- R41: the offset of a host address that reaches the window at `base`; `none` elsewhere, which is the platform's. -/
def windowOffset (base addr : Nat) : Option Offset :=
  if base ≤ addr ∧ addr < base + Config.windowSize then some (BitVec.ofNat 8 (addr - base)) else none

/-- A host access by its host address, before the platform has routed it. -/
inductive BusRequest where
  | read (addr : Nat) (width : Nat)
  | write (addr : Nat) (width : Nat) (v : Limb)
  deriving DecidableEq, Repr

/-- R41: the access to the window that a bus request is, if it is one. -/
def toWindow (base : Nat) : BusRequest → Option Access
  | .read addr width => (windowOffset base addr).map (fun off => .read off width)
  | .write addr width v => (windowOffset base addr).map (fun off => .write off width v)

/-- R41, R54: the host at place `h` makes a bus request; one outside the window never reaches the CORE. -/
def issueRequest (base h : Nat) (r : BusRequest) (s : State) : State :=
  match toWindow base r with
  | some acc => issueAccess h acc s
  | none => s

/-! ## Bytes (R44, R45) -/

/-- R44: the byte of a register holding `r` that host byte address `BLOCK_BASE + o + k` carries, `k = 0 .. 7`. -/
def regByte (order : ByteOrder) (r : Limb) (k : Nat) : Byte :=
  match order with
  | .little => r.extractLsb' (8 * k) 8
  | .big => r.extractLsb' (56 - 8 * k) 8

/-- R44: the eight bytes of a register, lowest address first. -/
def regBytes (order : ByteOrder) (r : Limb) : List Byte := (List.range 8).map (regByte order r)

/-- R44: the register value whose bytes, lowest address first, are these. -/
def limbOfBytes (order : ByteOrder) (bytes : List Byte) : Limb :=
  match order with
  | .little => bytes.foldr (fun x acc => acc <<< 8 ||| x.setWidth 64) 0
  | .big => bytes.foldl (fun acc x => acc <<< 8 ||| x.setWidth 64) 0

/-- R45: the 16-byte image of a 128-bit register pair, low limb first. -/
def pairImage (order : ByteOrder) (v : Value) : List Byte := regBytes order (lo v) ++ regBytes order (hi v)

/-- R44: the offset of the register that a byte offset lies in. -/
def alignedOffset (off : Offset) : Offset := BitVec.ofNat 8 (off.toNat / 8 * 8)

/-- R44: the byte that a host byte address of the window carries. No admitted access sees it alone (R42). -/
def windowByte (order : ByteOrder) (base addr : Nat) (s : State) : Option Byte :=
  (windowOffset base addr).map
    (fun off => regByte order (readWindow (alignedOffset off) s) (off.toNat % 8))

/-- R9: the same for the machine's own, open parameters. -/
def machineByte (addr : Nat) (s : State) : Option Byte :=
  windowByte Config.hostByteOrder Config.blockBase addr s

end Sys2Proof.Machine
end

