-- ==== Sys2Proof/Safety.lean ====
section
/-!
DEFINITION. The terms the claims use: what the CORE's own state is, the invariant, which states cannot be refused a
step, and which commands write what.
-/

namespace Sys2Proof.Machine

/-- The CORE's registers agree (R29: "Only `A`, `B`, `Y`, `Z` and `STATUS` survive a command"). -/
def sameCore (s t : State) : Prop :=
  s.a = t.a ∧ s.b = t.b ∧ s.y = t.y ∧ s.z = t.z ∧ s.status = t.status

/-- The outside world agrees: what the hosts have to do and have read, what is scheduled, and the model's counter. -/
def sameOutside (s t : State) : Prop :=
  s.hosts = t.hosts ∧ s.events = t.events ∧ s.draws = t.draws

/-- R194: "`STATUS` never has both bits set". -/
def statusExclusive (s : State) : Prop := ¬ (s.status.dz = true ∧ s.status.ill = true)

/-- No loss of power is scheduled. (After one, every register holds any value until the next reset: I15.) -/
def powerStays (s : State) : Prop := Event.powerLoss ∉ s.events

/-- The invariant of the machine, under power. -/
def MachineInv (s : State) : Prop := statusExclusive s ∧ powerStays s

/-- Every access any host has still to make is an aligned 8-byte access (R42). -/
def allAdmitted (s : State) : Prop := ∀ p ∈ s.hosts, ∀ acc ∈ p.todo, admitted acc = true

/-- The access that the next event takes, if the next event is a turn of a host with something to do. -/
def nextAccess (s : State) : Option Access :=
  match s.events with
  | .turn h :: _ =>
    match s.hosts[h]? with
    | some { todo := acc :: _, got := _ } => some acc
    | _ => none
  | _ => none

/-- The access is a write to `CMD`. -/
def isCommand : Access → Bool
  | .write off width _ => decide (off = regOffset .cmd) && decide (width = Config.accessBytes)
  | .read _ _ => false

/-- R23: the commands whose one result register is `Y`. -/
def writesOnlyY : Instr → Bool
  | .add | .sub | .inc | .dec | .and | .or | .xor | .not | .shl | .shr
  | .eq | .ne | .ltu | .leu | .gtu | .geu | .clz | .ctz | .efflen | .ispow2
  | .ext _ _ | .mul | .mulw64 | .fmulh64 | .modm _ => true
  | .nop | .divrem | .kdivrem | .movya | .movyb | .movza | .movzb => false

end Sys2Proof.Machine
end

