-- ==== Sys2Proof/Certificates/Slice0/Obligations.lean ====
section
/-!
DEFINITION. The statements for the provers, from the numbered rules of spec/. Each docstring names the rule (or the
log entry) it formalises. A statement whose conclusion is `exec i s = .next t` for every `s` is also the completion
statement of `i`, and its record update is its frame: every field not named keeps its value.
-/

open Sys2Proof Sys2Proof.Machine

/-! ## Encoding (30_encoding.md) -/

/-- R61 to R66, the round trip: no bit of a well-formed command is dropped. -/
def Obligations.DecodeReadsBackEncode : Prop :=
  ∀ i : Instr, i.wellFormed = true → decode (encode i) = .ok i

/-- R68, D9: every accepted word is the one encoding of a well-formed command. -/
def Obligations.AcceptedWordIsItsEncoding : Prop :=
  ∀ (w : CmdWord) (i : Instr), decode w = .ok i → i.wellFormed = true ∧ encode i = w

/-- R67: `legal` is the rule's formula; the decoder accepts exactly what it holds of, and a write of any other word has
the effect of R193. -/
def Obligations.AcceptedIffLegal : Prop :=
  (∀ w : CmdWord, (∃ i, decode w = .ok i) ↔ legal w = true) ∧
  (∀ (w : CmdWord) (s : State), legal w = false →
    writeWindow 0x48#8 w s = .next { s with status := { dz := false, ill := true } })

/-- R74, examples the spec marks derived (from R61 and R66): the example words, read and written. The names of the
rejections are the model's own; the spec has one illegal behaviour (R193). -/
def Obligations.EncodingExamples : Prop :=
  (encode .nop = 0x0000000000000000#64 ∧ decode 0x0000000000000000#64 = .ok .nop) ∧
  (encode .add = 0x0000000000000001#64 ∧ decode 0x0000000000000001#64 = .ok .add) ∧
  (encode .shr = 0x000000000000000A#64 ∧ decode 0x000000000000000A#64 = .ok .shr) ∧
  (encode (.ext true .w64) = 0x0000000000000715#64 ∧
    decode 0x0000000000000715#64 = .ok (.ext true .w64)) ∧
  (encode (.ext false .w8) = 0x0000000000000015#64 ∧
    decode 0x0000000000000015#64 = .ok (.ext false .w8)) ∧
  (encode (.ext true .w32) = 0x0000000000000615#64 ∧
    decode 0x0000000000000615#64 = .ok (.ext true .w32)) ∧
  (encode .mul = 0x0000000000000018#64 ∧ decode 0x0000000000000018#64 = .ok .mul) ∧
  (encode .fmulh64 = 0x000000000000001A#64 ∧ decode 0x000000000000001A#64 = .ok .fmulh64) ∧
  (encode .divrem = 0x0000000000000020#64 ∧ decode 0x0000000000000020#64 = .ok .divrem) ∧
  (encode .kdivrem = 0x0000000000000021#64 ∧ decode 0x0000000000000021#64 = .ok .kdivrem) ∧
  (encode (.modm 7) = 0x0000000000000722#64 ∧ decode 0x0000000000000722#64 = .ok (.modm 7)) ∧
  (encode (.modm 63) = 0x0000000000003F22#64 ∧ decode 0x0000000000003F22#64 = .ok (.modm 63)) ∧
  (encode .movya = 0x0000000000000030#64 ∧ decode 0x0000000000000030#64 = .ok .movya) ∧
  decode 0x0000000000000016#64 = .error .reservedOp ∧
  decode 0x0000000000000101#64 = .error .immNotZero ∧
  decode 0x0000000000000122#64 = .error .modulusRange ∧
  decode 0x0000000000004022#64 = .error .modulusRange ∧
  decode 0x8000000000000000#64 = .error .rsv2

/-- R63, R64, R65: what `IMM8` says, in a word whose reserved fields are zero. -/
def Obligations.ImmediateFieldsDecode : Prop :=
  ∀ w : CmdWord, rsv0Field w = 0 → rsv1Field w = 0 → rsv2Field w = 0 →
    (opField w = 0x15#6 → (immField w).toNat < 8 →
      ∃ k : ExtWidth, k.bits = 8 * 2 ^ ((immField w).toNat % 4) ∧
        decode w = .ok (.ext (decide (4 ≤ (immField w).toNat)) k)) ∧
    (opField w = 0x15#6 → 8 ≤ (immField w).toNat → ∃ r, decode w = .error r) ∧
    (opField w = 0x22#6 →
      (2 ≤ (immField w).toNat ∧ (immField w).toNat ≤ 63 → decode w = .ok (.modm (immField w))) ∧
      (¬ (2 ≤ (immField w).toNat ∧ (immField w).toNat ≤ 63) → ∃ r, decode w = .error r)) ∧
    (opField w ≠ 0x15#6 → opField w ≠ 0x22#6 → immField w ≠ 0 → ∃ r, decode w = .error r)

/-! ## Adder, subtractor, bitwise unit (40_limb.md) -/

/-- R80: the carry out of the low limb reaches the high limb, and the carry out of the high limb is lost. -/
def Obligations.AddIsSumModulo : Prop :=
  decode 0x01#64 = .ok .add ∧
  ∀ s : State, exec .add s = .next { s with y := s.a + s.b, status := Status.clear }

/-- R81. -/
def Obligations.SubIsDifferenceModulo : Prop :=
  decode 0x02#64 = .ok .sub ∧
  ∀ s : State, exec .sub s = .next { s with y := s.a - s.b, status := Status.clear }

/-- R82, R83: `B` is not read. -/
def Obligations.IncAndDecByOne : Prop :=
  decode 0x03#64 = .ok .inc ∧ decode 0x04#64 = .ok .dec ∧
  ∀ s : State,
    exec .inc s = .next { s with y := s.a + 1, status := Status.clear } ∧
    exec .dec s = .next { s with y := s.a - 1, status := Status.clear }

/-- R84 to R87. -/
def Obligations.BitwiseOnWholeValue : Prop :=
  decode 0x05#64 = .ok .and ∧ decode 0x06#64 = .ok .or ∧ decode 0x07#64 = .ok .xor ∧
  decode 0x08#64 = .ok .not ∧
  ∀ s : State,
    exec .and s = .next { s with y := s.a &&& s.b, status := Status.clear } ∧
    exec .or s = .next { s with y := s.a ||| s.b, status := Status.clear } ∧
    exec .xor s = .next { s with y := s.a ^^^ s.b, status := Status.clear } ∧
    exec .not s = .next { s with y := ~~~s.a, status := Status.clear } ∧
    (~~~s.a).toNat = 2 ^ 128 - 1 - s.a.toNat

/-! ## Shifter -/

/-- R88, R89: the count is `s64(b.lo)`; `b.hi` is not read. -/
def Obligations.ShlByEveryCount : Prop :=
  decode 0x09#64 = .ok .shl ∧
  ∀ s : State, exec .shl s = .next { s with
    y := if (lo s.b).toInt ≤ 0 then s.a
         else if 128 ≤ (lo s.b).toInt then 0
         else s.a <<< (lo s.b).toInt.toNat,
    status := Status.clear }

/-- R88, R90. -/
def Obligations.ShrByEveryCount : Prop :=
  decode 0x0A#64 = .ok .shr ∧
  ∀ s : State, exec .shr s = .next { s with
    y := if (lo s.b).toInt ≤ 0 then s.a
         else if 128 ≤ (lo s.b).toInt then 0
         else s.a >>> (lo s.b).toInt.toNat,
    status := Status.clear }

/-- R104: the exact results reduced modulo `2^128`, and the exact floor quotient of `SHR`, on the numbers; no error is
recorded. -/
def Obligations.WrapLawOfLimbFamily : Prop :=
  ∀ s : State,
    (∃ t, exec .add s = .next t ∧ t.y.toNat = (s.a.toNat + s.b.toNat) % 2 ^ 128 ∧ t.status = Status.clear) ∧
    (∃ t, exec .sub s = .next t ∧ (t.y.toNat : Int) = ((s.a.toNat : Int) - s.b.toNat) % 2 ^ 128 ∧
      t.status = Status.clear) ∧
    (∃ t, exec .inc s = .next t ∧ t.y.toNat = (s.a.toNat + 1) % 2 ^ 128 ∧ t.status = Status.clear) ∧
    (∃ t, exec .dec s = .next t ∧ (t.y.toNat : Int) = ((s.a.toNat : Int) - 1) % 2 ^ 128 ∧
      t.status = Status.clear) ∧
    (∀ n : Nat, (lo s.b).toInt = n →
      (∃ t, exec .shl s = .next t ∧ t.y.toNat = s.a.toNat * 2 ^ n % 2 ^ 128 ∧ t.status = Status.clear) ∧
      (∃ t, exec .shr s = .next t ∧ t.y.toNat = s.a.toNat / 2 ^ n ∧ t.status = Status.clear))

/-- R103, R124 (readings the spec marks as general knowledge, G2 and G4, so no rule is cited): the two's-complement
reading of the results. -/
def Obligations.SignedReadingOfResults : Prop :=
  ∀ s : State,
    (∃ t, exec .add s = .next t ∧ t.y.toInt = Int.bmod (s.a.toInt + s.b.toInt) (2 ^ 128)) ∧
    (∃ t, exec .sub s = .next t ∧ t.y.toInt = Int.bmod (s.a.toInt - s.b.toInt) (2 ^ 128)) ∧
    (∃ t, exec .inc s = .next t ∧ t.y.toInt = Int.bmod (s.a.toInt + 1) (2 ^ 128)) ∧
    (∃ t, exec .dec s = .next t ∧ t.y.toInt = Int.bmod (s.a.toInt - 1) (2 ^ 128)) ∧
    (∃ t, exec .not s = .next t ∧ t.y.toInt = -1 - s.a.toInt) ∧
    (∀ n : Nat, (lo s.b).toInt = n →
      ∃ t, exec .shl s = .next t ∧ t.y.toInt = Int.bmod (s.a.toInt * 2 ^ n) (2 ^ 128)) ∧
    (∃ t, exec .eq s = .next t ∧ t.y = if s.a.toInt = s.b.toInt then 1 else 0) ∧
    (∃ t, exec .ne s = .next t ∧ t.y = if s.a.toInt = s.b.toInt then 0 else 1) ∧
    (∃ t, exec .mul s = .next t ∧ t.y.toInt = Int.bmod (s.a.toInt * s.b.toInt) (2 ^ 128))

/-! ## Comparisons and counts -/

/-- R91 to R96: the six unsigned relations, as 1 or 0 in `Y`. -/
def Obligations.ComparisonsAreUnsigned : Prop :=
  decode 0x0B#64 = .ok .eq ∧ decode 0x0C#64 = .ok .ne ∧ decode 0x0D#64 = .ok .ltu ∧
  decode 0x0E#64 = .ok .leu ∧ decode 0x0F#64 = .ok .gtu ∧ decode 0x10#64 = .ok .geu ∧
  ∀ s : State,
    exec .eq s = .next { s with y := if s.a.toNat = s.b.toNat then 1 else 0, status := Status.clear } ∧
    exec .ne s = .next { s with y := if s.a.toNat = s.b.toNat then 0 else 1, status := Status.clear } ∧
    exec .ltu s = .next { s with y := if s.a.toNat < s.b.toNat then 1 else 0, status := Status.clear } ∧
    exec .leu s = .next { s with y := if s.a.toNat ≤ s.b.toNat then 1 else 0, status := Status.clear } ∧
    exec .gtu s = .next { s with y := if s.b.toNat < s.a.toNat then 1 else 0, status := Status.clear } ∧
    exec .geu s = .next { s with y := if s.b.toNat ≤ s.a.toNat then 1 else 0, status := Status.clear }

/-- R97: the count `n` is of zero bits from bit 127 down: bits above `127 - n` are 0, and bit `127 - n` is 1 unless
every bit is 0. -/
def Obligations.ClzCountsFromTheTop : Prop :=
  decode 0x11#64 = .ok .clz ∧
  ∀ s : State, ∃ n : Nat,
    exec .clz s = .next { s with y := BitVec.ofNat 128 n, status := Status.clear } ∧ n ≤ 128 ∧
    (∀ i, 128 - n ≤ i → i < 128 → s.a.getLsbD i = false) ∧
    (n < 128 → s.a.getLsbD (127 - n) = true)

/-- R98: the count from bit 0 up. -/
def Obligations.CtzCountsFromTheBottom : Prop :=
  decode 0x12#64 = .ok .ctz ∧
  ∀ s : State, ∃ n : Nat,
    exec .ctz s = .next { s with y := BitVec.ofNat 128 n, status := Status.clear } ∧ n ≤ 128 ∧
    (∀ i, i < n → s.a.getLsbD i = false) ∧
    (n < 128 → s.a.getLsbD n = true)

/-- R99, whose definition of `effective_length` the spec marks as general knowledge (D12, G1): the number of significant
bits, `2^(n-1) ≤ a < 2^n`, and 0 for 0. -/
def Obligations.EfflenIsBitLength : Prop :=
  decode 0x13#64 = .ok .efflen ∧
  ∀ s : State, ∃ n : Nat,
    exec .efflen s = .next { s with y := BitVec.ofNat 128 n, status := Status.clear } ∧ n ≤ 128 ∧
    s.a.toNat < 2 ^ n ∧ (0 < n → 2 ^ (n - 1) ≤ s.a.toNat)

/-- R100: `v != 0 && (v & (v-1)) == 0`, which holds exactly of the powers of two. -/
def Obligations.Ispow2TellsPowersOfTwo : Prop :=
  decode 0x14#64 = .ok .ispow2 ∧
  ∀ s : State,
    exec .ispow2 s = .next { s with
      y := if s.a ≠ 0 ∧ s.a &&& (s.a - 1) = 0 then 1 else 0, status := Status.clear } ∧
    ((s.a ≠ 0 ∧ s.a &&& (s.a - 1) = 0) ↔ ∃ k < 128, s.a.toNat = 2 ^ k)

/-- R101, R63: the source is the low `k` bits of `a.lo`, read unsigned or as two's complement. -/
def Obligations.ExtExtendsNarrowSource : Prop :=
  (encode (.ext false .w8) = 0x015#64 ∧ encode (.ext false .w16) = 0x115#64 ∧
    encode (.ext false .w32) = 0x215#64 ∧ encode (.ext false .w64) = 0x315#64 ∧
    encode (.ext true .w8) = 0x415#64 ∧ encode (.ext true .w16) = 0x515#64 ∧
    encode (.ext true .w32) = 0x615#64 ∧ encode (.ext true .w64) = 0x715#64) ∧
  ∀ (k : ExtWidth) (s : State),
    (∃ v : Value, exec (.ext false k) s = .next { s with y := v, status := Status.clear } ∧
      v.toNat = s.a.toNat % 2 ^ k.bits) ∧
    (∃ v : Value, exec (.ext true k) s = .next { s with y := v, status := Status.clear } ∧
      v.toInt = Int.bmod s.a.toNat (2 ^ k.bits))

/-! ## Multiplier (41_multiply.md) -/

/-- R120: the exact value, and the portable 32-bit decomposition (which the spec marks as general knowledge, G3) agrees
with it. -/
def Obligations.PortableMulHighIsExact : Prop :=
  ∀ a b : Limb, (mulhi64 a b).toNat = a.toNat * b.toNat / 2 ^ 64 ∧ mulhiPortable a b = mulhi64 a b

/-- R121: the low 128 bits of the product. -/
def Obligations.MulIsTruncatedProduct : Prop :=
  decode 0x18#64 = .ok .mul ∧
  ∀ s : State, exec .mul s = .next { s with y := s.a * s.b, status := Status.clear }

/-- R122: the exact product of the two low limbs. -/
def Obligations.Mulw64IsExactProduct : Prop :=
  decode 0x19#64 = .ok .mulw64 ∧
  ∀ s : State, ∃ v : Value,
    exec .mulw64 s = .next { s with y := v, status := Status.clear } ∧
    v.toNat = (lo s.a).toNat * (lo s.b).toNat

/-- R123: bits 191:128 of the 192-bit product `a · m`, with `Y.hi = 0`. The last clause is R125's bound, which the spec
marks derived. -/
def Obligations.Fmulh64IsHighWord : Prop :=
  decode 0x1A#64 = .ok .fmulh64 ∧
  ∀ s : State, ∃ v : Value,
    exec .fmulh64 s = .next { s with y := v, status := Status.clear } ∧
    v.toNat = s.a.toNat * (lo s.b).toNat / 2 ^ 128 ∧ hi v = 0 ∧
    (1 ≤ (lo s.b).toNat → s.a.toNat * (lo s.b).toNat / 2 ^ 128 ≤ (lo s.b).toNat - 1 ∧ (lo v).toNat < (lo s.b).toNat)

/-! ## Division (42_divrem.md, 43_knuth_divrem.md) -/

/-- R135: the generic engine's result and its one error. That the pair is the floor quotient and remainder is R137, a law
the spec marks derived. -/
def Obligations.DivremIsFloorDivision : Prop :=
  decode 0x20#64 = .ok .divrem ∧
  ∀ s : State,
    (s.b = 0 → exec .divrem s = .next { s with status := Status.divByZero }) ∧
    (s.b ≠ 0 → exec .divrem s = .next { s with y := s.a / s.b, z := s.a % s.b, status := Status.clear })

/-- R137, a law the spec marks derived: the algorithm of R136 gives the floor quotient and remainder, so the
`DivisionResult` invariant holds exactly. -/
def Obligations.DivremResultLaw : Prop :=
  ∀ a b : Value, b ≠ 0 → ∃ q r : Value, divrem a b = some (q, r) ∧
    q.toNat = a.toNat / b.toNat ∧ r.toNat = a.toNat % b.toNat ∧
    a.toNat = q.toNat * b.toNat + r.toNat ∧ r.toNat < b.toNat

/-- R138, bounds the spec marks derived: in the general case no bit of the divisor is shifted out, and the loop runs at most 128 times. -/
def Obligations.LongDivisionBounds : Prop :=
  ∀ a b : Value, b ≠ 0 → ¬ a < b → a ≠ b → b ≠ 1 → isPow2 b = false →
    3 ≤ b.toNat ∧ b.toNat < a.toNat ∧ 1 ≤ effLen b ∧ effLen b ≤ effLen a ∧ effLen a ≤ 128 ∧
    alignShift a b ≤ 127 ∧ alignShift a b + 1 ≤ 128 ∧
    (shlLimbs b (alignShift a b)).toNat = b.toNat * 2 ^ alignShift a b ∧
    effLen (shlLimbs b (alignShift a b)) = effLen a

/-- R140: "Multiplicative inverse round trip" and "Power-of-2 fast path equivalence", on the commands. -/
def Obligations.DivisionRoundTrip : Prop :=
  (∀ (s : State) (q r : Value), s.b ≠ 0 → q = s.a / s.b → r = s.a % s.b →
    exec .divrem { s with a := s.a - r } = .next { s with a := s.a - r, y := q, z := 0, status := Status.clear } ∧
    (q ≠ 0 → exec .divrem { s with a := s.a - r, b := q } =
      .next { s with a := s.a - r, b := q, y := s.b, z := 0, status := Status.clear })) ∧
  (∀ (s : State) (k : Nat), k < 128 → s.b.toNat = 2 ^ k →
    exec .divrem s = .next { s with y := s.a >>> k, z := s.a &&& (s.b - 1), status := Status.clear })

/-- R150: the optimized engine's result and its one error. -/
def Obligations.KdivremIsFloorDivision : Prop :=
  decode 0x21#64 = .ok .kdivrem ∧
  ∀ s : State,
    (s.b = 0 → exec .kdivrem s = .next { s with status := Status.divByZero }) ∧
    (s.b ≠ 0 → exec .kdivrem s = .next { s with y := s.a / s.b, z := s.a % s.b, status := Status.clear })

/-- R150, S14: the two engines agree on every state; R163: nothing tells which path ran. -/
def Obligations.KdivremAgreesWithDivrem : Prop :=
  ∀ s : State, exec .kdivrem s = exec .divrem s

/-- R153: the stages of a recognized divisor (D17), and the exact pair whatever the stages. The second clause and the first
two lines of the third are the exactness the spec marks derived ("from the two stage equations"); the last line is the
rule's combination of remainders. -/
def Obligations.ChainedStagesAreExact : Prop :=
  (stagesOf 10 = some [2, 5] ∧ stagesOf 100 = some [4, 25] ∧ stagesOf 1000 = some [8, 125] ∧
    stagesOf 9 = some [3, 3] ∧ stagesOf 27 = some [3, 3, 3] ∧ stagesOf 25 = some [5, 5] ∧
    stagesOf 125 = some [5, 5, 5] ∧ stagesOf 3 = some [3] ∧ stagesOf 5 = some [5]) ∧
  (∀ a b : Value, ∀ stages, stagesOf b = some stages → chained a stages = (a / b, a % b)) ∧
  (∀ (a : Value) (d1 d2 : Value), d1 ≠ 0 → d2 ≠ 0 →
    (chained a [d1, d2]).1.toNat = a.toNat / (d1.toNat * d2.toNat) ∧
    (chained a [d1, d2]).2.toNat = a.toNat % (d1.toNat * d2.toNat) ∧
    (chained a [d1, d2]).2.toNat = a.toNat / d1.toNat % d2.toNat * d1.toNat + a.toNat % d1.toNat)

/-- R152, R154, R155 (whose two-step form the spec marks as general knowledge, G5): the shift-and-mask, single-limb and
128-by-64 paths. -/
def Obligations.FastPathsAreExact : Prop :=
  ∀ a b : Value, b ≠ 0 →
    (∀ k < 128, b.toNat = 2 ^ k → pow2Division a b = (a / b, a % b)) ∧
    (hi a = 0 → hi b = 0 → singleLimb a b = (a / b, a % b)) ∧
    (hi b = 0 → twoByOne a b = (a / b, a % b) ∧
      ((hi a).toNat % (lo b).toNat * 2 ^ 64 + (lo a).toNat) / (lo b).toNat < 2 ^ 64)

/-- R156: step 1 puts a one in bit 63 of the divisor's top limb, loses no bit of either operand, and `U = a·2^s`. -/
def Obligations.NormalizationLosesNoBit : Prop :=
  ∀ a b : Value, hi b ≠ 0 →
    (normalize a b).s ≤ 63 ∧ (hi (normalize a b).v).getLsbD 63 = true ∧
    (normalize a b).v.toNat = b.toNat * 2 ^ (normalize a b).s ∧
    (normalize a b).u2.toNat * 2 ^ 128 + (hi (normalize a b).u).toNat * 2 ^ 64 + (lo (normalize a b).u).toNat
      = a.toNat * 2 ^ (normalize a b).s

/-- R161, bounds the spec marks derived: path 8; the trial digit is at most two too large, step 2 makes it exact, and step 4 never
runs. -/
def Obligations.AlgorithmDBounds : Prop :=
  ∀ a b : Value, hi b ≠ 0 →
    (normalize a b).u2.toNat < 2 ^ (normalize a b).s ∧ 2 ^ (normalize a b).s ≤ 2 ^ 63 ∧
    2 ^ 63 ≤ (hi (normalize a b).v).toNat ∧
    (normalize a b).u2.toNat * 2 ^ 64 + (hi (normalize a b).u).toNat < (hi (normalize a b).v).toNat * 2 ^ 64 ∧
    (trialDigit (normalize a b)).1 ≤ 2 ^ 64 - 1 ∧
    a.toNat / b.toNat ≤ (trialDigit (normalize a b)).1 ∧
    (trialDigit (normalize a b)).1 ≤ a.toNat / b.toNat + 2 ∧
    (estimatedDigit (normalize a b)).toNat = a.toNat / b.toNat ∧
    (estimatedDigit (normalize a b)).toNat * (normalize a b).v.toNat
      ≤ (normalize a b).u2.toNat * 2 ^ 128 + (normalize a b).u.toNat ∧
    borrows (normalize a b) (estimatedDigit (normalize a b)) = false ∧
    (addBack (normalize a b) (estimatedDigit (normalize a b))).2.toNat < (normalize a b).v.toNat ∧
    (algorithmD a b).2.toNat < b.toNat ∧
    (algorithmD a b).1.toNat * b.toNat + (algorithmD a b).2.toNat = a.toNat

/-! ## Modular reduction (44_modm.md) -/

/-- R170, R173: `MODM M` is the remainder by `M`, with the high limb zero, for every legal modulus; it is what `DIVREM` by
`M` leaves in `Z`. -/
def Obligations.ModmIsRemainder : Prop :=
  ∀ (m : BitVec 8) (s : State), 2 ≤ m.toNat → m.toNat ≤ 63 →
    encode (.modm m) = BitVec.ofNat 64 (0x22 + 256 * m.toNat) ∧
    decode (encode (.modm m)) = .ok (.modm m) ∧
    ∃ v : Value, exec (.modm m) s = .next { s with y := v, status := Status.clear } ∧
      v.toNat = s.a.toNat % m.toNat ∧ hi v = 0 ∧ (lo v).toNat < m.toNat ∧
      ∃ q, exec .divrem { s with b := m.setWidth 128 } =
        .next { s with b := m.setWidth 128, y := q, z := v, status := Status.clear }

/-- R172, a congruence the spec marks derived (from R10), for every `M`; and R171: whichever class the first match (D30)
picks for a legal modulus, it gives `a mod M`. What each class computes is the model's reading (notes/assumptions/8). -/
def Obligations.StrategyClassesAgree : Prop :=
  (∀ (a : Value) (m : Nat), 1 ≤ m →
    a.toNat % m = ((hi a).toNat % m * (2 ^ 64 % m) + (lo a).toNat % m) % m) ∧
  2 ^ 64 % 7 = 2 ∧ 2 ^ 64 % 10 = 6 ∧ 2 ^ 64 % 63 = 16 ∧ (∀ k ≤ 64, 2 ^ 64 % 2 ^ k = 0) ∧
  (∀ (a : Value) (m : Nat), 2 ≤ m → m ≤ 63 → modByClass a m = a.toNat % m)

/-! ## Control and moves (45_control.md) -/

/-- R180 to R184. -/
def Obligations.NopAndMoves : Prop :=
  decode 0x00#64 = .ok .nop ∧ decode 0x30#64 = .ok .movya ∧ decode 0x31#64 = .ok .movyb ∧
  decode 0x32#64 = .ok .movza ∧ decode 0x33#64 = .ok .movzb ∧
  ∀ s : State,
    exec .nop s = .next { s with status := Status.clear } ∧
    exec .movya s = .next { s with a := s.y, status := Status.clear } ∧
    exec .movyb s = .next { s with b := s.y, status := Status.clear } ∧
    exec .movza s = .next { s with a := s.z, status := Status.clear } ∧
    exec .movzb s = .next { s with b := s.z, status := Status.clear }

/-! ## Command execution, errors (30_encoding.md R71; 60_exceptions.md) -/

/-- R193: an illegal word sets `ILL`, clears `DZ` and does nothing else; the next accepted command clears `ILL`. -/
def Obligations.IllegalWordOnlySetsIll : Prop :=
  ∀ (w w' : CmdWord) (s : State), legal w = false → legal w' = true →
    ∃ t, issueCommand w s = .next { s with status := { dz := false, ill := true } } ∧
      issueCommand w' { s with status := { dz := false, ill := true } } = .next t ∧ t.status.ill = false

/-- R71: an accepted command clears `ILL`, and sets `DZ` exactly for a division by zero. -/
def Obligations.AcceptedCommandStatus : Prop :=
  ∀ (w : CmdWord) (i : Instr) (s : State), decode w = .ok i →
    ∃ t, issueCommand w s = .next t ∧ exec i s = .next t ∧ t.status.ill = false ∧
      (t.status.dz = true ↔ (i = .divrem ∨ i = .kdivrem) ∧ s.b = 0)

/-- R190, R193, R194: "Every command, legal or not, completes": it answers a next state, leaves the outside as it was, and has
at most one error condition; an illegal word never sets `DZ`. -/
def Obligations.CommandCompletesWithOneErrorAtMost : Prop :=
  ∀ (w : CmdWord) (s : State), ∃ t, issueCommand w s = .next t ∧ sameOutside s t ∧
    ¬ (t.status.dz = true ∧ t.status.ill = true) ∧
    (legal w = false → t.status.ill = true ∧ t.status.dz = false)

/-- R23, R71, the frame of the commands that write `Y`: every other register of the window reads as before, and so does
the outside. -/
def Obligations.FrameOfResultCommands : Prop :=
  ∀ (i : Instr) (s : State), writesOnlyY i = true →
    ∃ t, exec i s = .next t ∧ t.a = s.a ∧ t.b = s.b ∧ t.z = s.z ∧ t.status = Status.clear ∧ sameOutside s t ∧
      ∀ off : Offset, off ≠ 0x20#8 → off ≠ 0x28#8 → off ≠ 0x40#8 → readWindow off t = readWindow off s

/-- R71, R135, R150, R192, the frame of the divisions: with a zero divisor `Y` and `Z` keep their values too. -/
def Obligations.FrameOfDivisions : Prop :=
  ∀ (i : Instr) (s : State), i = .divrem ∨ i = .kdivrem →
    ∃ t, exec i s = .next t ∧ t.a = s.a ∧ t.b = s.b ∧ sameOutside s t ∧
      (s.b = 0 → t.y = s.y ∧ t.z = s.z ∧ t.status = Status.divByZero) ∧
      ∀ off : Offset, off ≠ 0x20#8 → off ≠ 0x28#8 → off ≠ 0x30#8 → off ≠ 0x38#8 → off ≠ 0x40#8 →
        readWindow off t = readWindow off s

/-- R21, R22, R24: which commands may change `A`, `B`, `Z`. -/
def Obligations.OnlyNamedCommandsWrite : Prop :=
  ∀ (i : Instr) (s : State), ∃ t, exec i s = .next t ∧
    (t.a ≠ s.a → i = .movya ∧ t.a = s.y ∨ i = .movza ∧ t.a = s.z) ∧
    (t.b ≠ s.b → i = .movyb ∧ t.b = s.y ∨ i = .movzb ∧ t.b = s.z) ∧
    (t.z ≠ s.z → (i = .divrem ∨ i = .kdivrem) ∧ s.b ≠ 0)

/-! ## Register window (10_state.md, 20_memory.md) -/

/-- R31, R25: what each offset of the map reads, `STATUS` with its hard-wired zeros, and 0 at `CMD`. -/
def Obligations.RegisterMapReads : Prop :=
  ∀ s : State,
    readWindow 0x00#8 s = lo s.a ∧ readWindow 0x08#8 s = hi s.a ∧
    readWindow 0x10#8 s = lo s.b ∧ readWindow 0x18#8 s = hi s.b ∧
    readWindow 0x20#8 s = lo s.y ∧ readWindow 0x28#8 s = hi s.y ∧
    readWindow 0x30#8 s = lo s.z ∧ readWindow 0x38#8 s = hi s.z ∧
    (readWindow 0x40#8 s).toNat = (if s.status.dz then 1 else 0) + (if s.status.ill then 2 else 0) ∧
    readWindow 0x48#8 s = 0 ∧
    (∀ off : Offset, 0x50 ≤ off.toNat → readWindow off s = 0)

/-- R32, R46, R47: a write to an operand limb holds exactly the 64 bits written and changes only that limb; a write to a
read-only or reserved offset has no effect. -/
def Obligations.WindowWritesChangeOneLimb : Prop :=
  ∀ (off : Offset) (v : Limb) (s : State),
    (off ∈ [0x00#8, 0x08#8, 0x10#8, 0x18#8] →
      ∃ t, writeWindow off v s = .next t ∧ readWindow off t = v ∧
        (∀ off' : Offset, off' ≠ off → readWindow off' t = readWindow off' s) ∧
        t.y = s.y ∧ t.z = s.z ∧ t.status = s.status ∧ sameOutside s t) ∧
    (off ∈ [0x20#8, 0x28#8, 0x30#8, 0x38#8, 0x40#8] ∨ 0x50 ≤ off.toNat → writeWindow off v s = .next s)

/-- R42: an access that is not 8 bytes at a multiple of 8 has no step. That "no step" is this refusal is the model's form of
it (notes/assumptions/2; I9: `refuse`). -/
def Obligations.UnadmittedAccessHasNoStep : Prop :=
  ∀ (s : State) (h : Nat) (rest : List Event) (off : Offset) (width : Nat) (v : Limb)
    (more : List Access) (got : List Limb),
    s.events = .turn h :: rest → (width ≠ 8 ∨ off.toNat % 8 ≠ 0) →
    (s.hosts[h]? = some { todo := .read off width :: more, got := got } ∨
      s.hosts[h]? = some { todo := .write off width v :: more, got := got }) →
    step s = .refused .accessNotAdmitted

/-- R47: an admitted read returns the register to the host that asked and has no side effect. -/
def Obligations.ReadReturnsRegister : Prop :=
  ∀ (s : State) (h : Nat) (rest : List Event) (off : Offset) (more : List Access) (got : List Limb),
    s.events = .turn h :: rest → off.toNat % 8 = 0 →
    s.hosts[h]? = some { todo := .read off 8 :: more, got := got } →
    step s = .next { s with
      events := rest, hosts := s.hosts.set h { todo := more, got := got ++ [readWindow off s] } }

/-! ## Steps -/

/-- R26, R32, R48, R71: a step whose access is an admitted write does that write to the window, at every offset, on the
state in which the event is taken and the access is done. So a word that decodes, written to `CMD`, runs its command
there, an illegal word records `ILL` there and does nothing else (R193), and an operand write reaches its limb. -/
def Obligations.StepRunsDecodedCommand : Prop :=
  ∀ (s : State) (h : Nat) (rest : List Event) (off : Offset) (v : Limb) (more : List Access) (got : List Limb),
    s.events = .turn h :: rest → off.toNat % 8 = 0 →
    s.hosts[h]? = some { todo := .write off 8 v :: more, got := got } →
    step s = writeWindow off v { s with events := rest, hosts := s.hosts.set h { todo := more, got := got } } ∧
    (off = 0x48#8 →
      (∀ i, decode v = .ok i →
        step s = exec i { s with events := rest, hosts := s.hosts.set h { todo := more, got := got } }) ∧
      (legal v = false →
        step s = .next { s with
          events := rest, hosts := s.hosts.set h { todo := more, got := got },
          status := { dz := false, ill := true } })) ∧
    (off ∈ [0x00#8, 0x08#8, 0x10#8, 0x18#8] →
      ∃ t, step s = .next t ∧ readWindow off t = v ∧
        ∀ off' : Offset, off' ≠ off → readWindow off' t = readWindow off' s)

/-- R48, R213: a read right after a `CMD` write, by whichever host and of whatever word, returns that command's result. -/
def Obligations.ReadAfterCommandSeesResult : Prop :=
  ∀ (s t u : State) (h k : Nat) (rest : List Event) (w : CmdWord) (off : Offset)
    (more more' : List Access) (got got' : List Limb),
    s.events = .turn h :: .turn k :: rest →
    s.hosts[h]? = some { todo := .write 0x48#8 8 w :: more, got := got } →
    issueCommand w s = .next u → step s = .next t →
    t.hosts[k]? = some { todo := .read off 8 :: more', got := got' } → off.toNat % 8 = 0 →
    ∃ t', step t = .next t' ∧
      t'.hosts[k]? = some { todo := more', got := got' ++ [readWindow off u] } ∧ sameCore t' u

/-- R214 (marked derived, from R32): `Y`, `Z` and `STATUS` change only by a command (or a reset or loss of power). -/
def Obligations.ResultsStayUntilNextCommand : Prop :=
  ∀ s t : State, step s = .next t →
    s.events.head? ≠ some .resetInput → s.events.head? ≠ some .powerLoss →
    (∀ acc, nextAccess s = some acc → isCommand acc = false) →
    t.y = s.y ∧ t.z = s.z ∧ t.status = s.status

/-- R21, R22: `A` and `B` change only by a host write to the limb's offset or by a command (or a reset or loss of
power). -/
def Obligations.OperandsChangeOnlyByWrites : Prop :=
  ∀ s t : State, step s = .next t →
    s.events.head? ≠ some .resetInput → s.events.head? ≠ some .powerLoss →
    (t.a ≠ s.a → ∃ v, nextAccess s = some (.write 0x00#8 8 v) ∨ nextAccess s = some (.write 0x08#8 8 v) ∨
      nextAccess s = some (.write 0x48#8 8 v) ∧ (decode v = .ok .movya ∨ decode v = .ok .movza)) ∧
    (t.b ≠ s.b → ∃ v, nextAccess s = some (.write 0x10#8 8 v) ∨ nextAccess s = some (.write 0x18#8 8 v) ∨
      nextAccess s = some (.write 0x48#8 8 v) ∧ (decode v = .ok .movyb ∨ decode v = .ok .movzb))

/-- R49: a turn leaves every other host's accesses and what it has read alone, and takes at most the first of its own, so
each host's own order is kept. -/
def Obligations.TurnKeepsEachHostsOrder : Prop :=
  ∀ (s t : State) (h : Nat) (rest : List Event), s.events = .turn h :: rest → step s = .next t →
    t.events = rest ∧ t.hosts.length = s.hosts.length ∧ (∀ k, k ≠ h → t.hosts[k]? = s.hosts[k]?) ∧
    (∀ p, s.hosts[h]? = some p → ∃ p', t.hosts[h]? = some p' ∧ p'.todo = p.todo.tail ∧
      (p'.got = p.got ∨ ∃ v, p'.got = p.got ++ [v]))

/-- R200: hosts have no identifiers the CORE sees; the same access by any host of any crowd does the same to the
CORE. -/
def Obligations.HostsAreAnonymous : Prop :=
  ∀ (s s' t t' : State) (acc : Access), sameCore s s' → nextAccess s = some acc → nextAccess s' = some acc →
    step s = .next t → step s' = .next t' → sameCore t t'

/-- R190, R42: the CORE "never stops or hangs": while every host's accesses are admitted, every step answers a next state,
and they stay admitted. -/
def Obligations.NeverStopsWhileAdmitted : Prop :=
  ∀ s : State, allAdmitted s → ∃ t, step s = .next t ∧ allAdmitted t

/-- R194, R25, the invariant: under power, `STATUS` never has both bits set. -/
def Obligations.StepKeepsInvariant : Prop :=
  ∀ s t : State, MachineInv s → step s = .next t → MachineInv t

/-! ## Reset and power (70_reset_and_hazards.md) -/

/-- R30, R210: the reset state; every offset reads 0. It meets the invariant too, whose part about the schedule holds because
the model's reset schedule is empty (notes/assumptions/5). -/
def Obligations.ResetState : Prop :=
  State.reset.a = 0 ∧ State.reset.b = 0 ∧ State.reset.y = 0 ∧ State.reset.z = 0 ∧
  State.reset.status = { dz := false, ill := false } ∧ (∀ off : Offset, readWindow off State.reset = 0) ∧
  MachineInv State.reset

/-- R210, R211: the reset input zeroes every register of the CORE. That it leaves the hosts and the schedule alone is the
model's choice (notes/assumptions/12), and so is the form of waiting, a step with nothing scheduled that answers the same
state (notes/assumptions/7). -/
def Obligations.ResetInputThenWait : Prop :=
  (∀ (s : State) (rest : List Event), s.events = .resetInput :: rest →
    ∃ t, step s = .next t ∧ sameCore t State.reset ∧ sameOutside t { s with events := rest }) ∧
  (∀ s : State, s.events = [] → step s = .next s)

/-- Log entry 6, the model's form of I15: after a loss of power every register of the CORE holds a free value, the next
draws are fresh, and the hosts are as they were. It holds for every value of the counter. -/
def Obligations.PowerLossDrawsFreeValues : Prop :=
  ∀ (s : State) (rest : List Event), s.events = .powerLoss :: rest →
    ∃ t, step s = .next t ∧ t.hosts = s.hosts ∧ t.events = rest ∧ t.draws = s.draws + 1 ∧
      t.a = Config.valueAfterPowerLoss (4 * s.draws) ∧ t.b = Config.valueAfterPowerLoss (4 * s.draws + 1) ∧
      t.y = Config.valueAfterPowerLoss (4 * s.draws + 2) ∧ t.z = Config.valueAfterPowerLoss (4 * s.draws + 3) ∧
      t.status.dz = Config.flagAfterPowerLoss (2 * s.draws) ∧ t.status.ill = Config.flagAfterPowerLoss (2 * s.draws + 1)

/-! ## Bytes and addresses (20_memory.md) -/

/-- R43, R44, R45: byte `k` of a register in each byte order, the register back from its eight bytes, and the 16-byte
image of a pair: low limb first in either order, `v[8k+7:8k]` in the little-endian one; and the address that carries each
byte, for any place of the window. -/
def Obligations.BytesOfRegistersAndPairs : Prop :=
  (∀ r : Limb,
    (∀ k < 8, regByte .little r k = r.extractLsb' (8 * k) 8 ∧ regByte .big r k = r.extractLsb' (56 - 8 * k) 8) ∧
    (∀ order : ByteOrder, limbOfBytes order (regBytes order r) = r)) ∧
  (∀ v : Value,
    (∀ k < 16, (pairImage .little v)[k]? = some (v.extractLsb' (8 * k) 8)) ∧
    (∀ order : ByteOrder, (pairImage order v).length = 16 ∧
      (pairImage order v).take 8 = regBytes order (lo v) ∧ (pairImage order v).drop 8 = regBytes order (hi v))) ∧
  (∀ (order : ByteOrder) (base : Nat) (off : Offset) (k : Nat) (s : State), off.toNat % 8 = 0 → k < 8 →
    windowByte order base (base + off.toNat + k) s = some (regByte order (readWindow off s) k))

/-- R41: an address reaches the window exactly when it lies in its 256 bytes, with offset `addr - BLOCK_BASE`; the
machine's own base is a multiple of 256. -/
def Obligations.AddressReachesWindow : Prop :=
  (∀ base addr : Nat,
    (base ≤ addr ∧ addr < base + 256 → ∃ off : Offset, windowOffset base addr = some off ∧ off.toNat = addr - base) ∧
    (¬ (base ≤ addr ∧ addr < base + 256) → windowOffset base addr = none)) ∧
  Config.blockBase % 256 = 0

/-- R73: `LDS A, x` leaves in `A` the value whose signed reading is `x`'s. -/
def Obligations.LdsConstructsSignedValue : Prop :=
  ∀ (x : Limb) (s : State), ∃ t,
    Host.Core.run Sys2Proof.core 3 (oneHost (lineAccesses (.ldsA x)) s) = .next t ∧ t.a.toInt = x.toInt ∧ t.b = s.b
end

