-- ==== Sys2Proof/Laws/Limb.lean ====
section
/-!
SUPPORT. Laws of the limb unit: each function that is written limb by limb, as the rules give it, computes what the
rules say of the whole 128-bit value.
-/

namespace Sys2Proof.Machine

/-! ## Limbs -/

theorem toNat_lo (v : Value) : (lo v).toNat = v.toNat % 2 ^ 64 := by
  simp [lo]

theorem toNat_hi (v : Value) : (hi v).toNat = v.toNat / 2 ^ 64 := by
  have hv := v.isLt
  simp only [hi, BitVec.extractLsb'_toNat, Nat.shiftRight_eq_div_pow]
  omega

theorem toNat_pair (h l : Limb) : (pair h l).toNat = h.toNat * 2 ^ 64 + l.toNat := by
  have hl := l.isLt
  simp only [pair, BitVec.toNat_append]
  rw [← Nat.shiftLeft_add_eq_or_of_lt hl, Nat.shiftLeft_eq]

/-- R10: the number a value denotes is `h·2^64 + l`. -/
theorem toNat_eq_limbs (v : Value) : v.toNat = (hi v).toNat * 2 ^ 64 + (lo v).toNat := by
  rw [toNat_lo, toNat_hi]; omega

@[simp] theorem lo_pair (h l : Limb) : lo (pair h l) = l := by
  apply BitVec.eq_of_toNat_eq
  have := l.isLt
  rw [toNat_lo, toNat_pair]; omega

@[simp] theorem hi_pair (h l : Limb) : hi (pair h l) = h := by
  apply BitVec.eq_of_toNat_eq
  have := l.isLt
  rw [toNat_hi, toNat_pair]; omega

@[simp] theorem pair_hi_lo (v : Value) : pair (hi v) (lo v) = v := by
  apply BitVec.eq_of_toNat_eq
  rw [toNat_pair, toNat_eq_limbs v]

theorem value_ext {v w : Value} (hh : hi v = hi w) (hl : lo v = lo w) : v = w := by
  rw [← pair_hi_lo v, ← pair_hi_lo w, hh, hl]

theorem toNat_zextLimb (x : Limb) : (zextLimb x).toNat = x.toNat := by
  simp [zextLimb, toNat_pair]

/-! ## Adder and subtractor (R80, R81, R104) -/

theorem addLimbs_eq (a b : Value) : addLimbs a b = a + b := by
  apply BitVec.eq_of_toNat_eq
  have ha := toNat_eq_limbs a
  have hb := toNat_eq_limbs b
  have h1 := (lo a).isLt
  have h2 := (lo b).isLt
  have h3 := (hi a).isLt
  have h4 := (hi b).isLt
  simp only [addLimbs, toNat_pair, BitVec.toNat_add, carryOut, BitVec.lt_def]
  split <;> simp <;> omega

theorem subLimbs_eq (a b : Value) : subLimbs a b = a - b := by
  apply BitVec.eq_of_toNat_eq
  have ha := toNat_eq_limbs a
  have hb := toNat_eq_limbs b
  have h1 := (lo a).isLt
  have h2 := (lo b).isLt
  have h3 := (hi a).isLt
  have h4 := (hi b).isLt
  simp only [subLimbs, toNat_pair, BitVec.toNat_sub, borrowOut, BitVec.lt_def]
  split <;> simp <;> omega

/-! ## Bitwise (R84 to R87) -/

theorem pair_and (a b : Value) : pair (hi a &&& hi b) (lo a &&& lo b) = a &&& b := by
  apply value_ext <;> simp only [hi_pair, lo_pair] <;> ext i <;> simp [hi, lo]

theorem pair_or (a b : Value) : pair (hi a ||| hi b) (lo a ||| lo b) = a ||| b := by
  apply value_ext <;> simp only [hi_pair, lo_pair] <;> ext i <;> simp [hi, lo]

theorem pair_xor (a b : Value) : pair (hi a ^^^ hi b) (lo a ^^^ lo b) = a ^^^ b := by
  apply value_ext <;> simp only [hi_pair, lo_pair] <;> ext i <;> simp [hi, lo]

theorem pair_not (a : Value) : pair (~~~(hi a)) (~~~(lo a)) = ~~~a := by
  apply value_ext <;> simp only [hi_pair, lo_pair] <;> ext i h <;> simp [hi, lo] <;> omega

/-! ## Shifter (R88 to R90) -/

theorem getLsbD_lo (v : Value) (i : Nat) : (lo v).getLsbD i = (decide (i < 64) && v.getLsbD i) := by
  simp [lo]

theorem getLsbD_hi (v : Value) (i : Nat) : (hi v).getLsbD i = (decide (i < 64) && v.getLsbD (64 + i)) := by
  simp [hi]

theorem getLsbD_pair (h l : Limb) (i : Nat) :
    (pair h l).getLsbD i = if i < 64 then l.getLsbD i else h.getLsbD (i - 64) := by
  simp only [pair, BitVec.getLsbD_append]

theorem shlLimbs_of_nat (a : Value) (n : Nat) : shlLimbs a n = a <<< n := by
  unfold shlLimbs
  split_ifs with h0 h1 h2
  · have : n = 0 := by omega
    subst this; simp
  · have : 128 ≤ n := by omega
    exact (BitVec.shiftLeft_eq_zero this).symm
  · have hn : 0 < n := by omega
    have hn' : n < 64 := by omega
    apply BitVec.eq_of_getLsbD_eq
    intro i hi'
    simp only [Int.toNat_natCast, getLsbD_pair, BitVec.getLsbD_or, BitVec.getLsbD_shiftLeft,
      BitVec.getLsbD_ushiftRight, getLsbD_hi, getLsbD_lo]
    by_cases hi64 : i < 64
    · simp only [hi64, if_true]
      by_cases hin : i < n
      · simp [hin]
      · simp [hin, hi', show i - n < 64 by omega]
    · simp only [hi64, if_false]
      by_cases hin : i - 64 < n
      · simp [hin, hi', show ¬ i < n by omega, show i - n < 64 by omega,
          show i - 64 < 64 by omega, show 64 - n + (i - 64) = i - n by omega]
      · simp [hin, hi', show ¬ i < n by omega, show ¬ 64 - n + (i - 64) < 64 by omega,
          show i - 64 < 64 by omega, show i - 64 - n < 64 by omega,
          show 64 + (i - 64 - n) = i - n by omega]
  · have hn : 64 ≤ n := by omega
    apply BitVec.eq_of_getLsbD_eq
    intro i hi'
    simp only [Int.toNat_natCast, getLsbD_pair, BitVec.getLsbD_shiftLeft, getLsbD_lo]
    by_cases hi64 : i < 64
    · simp [hi64, show i < n by omega]
    · simp only [hi64, if_false]
      by_cases hin : i < n
      · simp [hin, show i - 64 < n - 64 by omega]
      · simp [hin, hi', show ¬ i - 64 < n - 64 by omega, show i - 64 < 64 by omega,
          show i - n < 64 by omega, show i - 64 - (n - 64) = i - n by omega]

theorem shrLimbs_of_nat (a : Value) (n : Nat) : shrLimbs a n = a >>> n := by
  unfold shrLimbs
  split_ifs with h0 h1 h2
  · have : n = 0 := by omega
    subst this; simp
  · have : 128 ≤ n := by omega
    exact (BitVec.ushiftRight_eq_zero this).symm
  · have hn : 0 < n := by omega
    have hn' : n < 64 := by omega
    apply BitVec.eq_of_getLsbD_eq
    intro i hi'
    simp only [Int.toNat_natCast, getLsbD_pair, BitVec.getLsbD_or, BitVec.getLsbD_shiftLeft,
      BitVec.getLsbD_ushiftRight, getLsbD_hi, getLsbD_lo]
    by_cases hi64 : i < 64
    · simp only [hi64, if_true]
      by_cases hin : n + i < 64
      · simp [hin, show i < 64 - n by omega]
      · simp [hin, show ¬ i < 64 - n by omega, show i - (64 - n) < 64 by omega,
          show 64 + (i - (64 - n)) = n + i by omega]
    · simp only [hi64, if_false]
      by_cases hin : n + (i - 64) < 64
      · simp [hin, show 64 + (n + (i - 64)) = n + i by omega]
      · simp [hin]
        exact BitVec.getLsbD_of_ge _ _ (by omega)
  · have hn : 64 ≤ n := by omega
    apply BitVec.eq_of_getLsbD_eq
    intro i hi'
    simp only [Int.toNat_natCast, getLsbD_pair, BitVec.getLsbD_ushiftRight, getLsbD_hi]
    by_cases hi64 : i < 64
    · simp only [hi64, if_true]
      by_cases hin : n - 64 + i < 64
      · simp [hin, show 64 + (n - 64 + i) = n + i by omega]
      · simp [hin]
        exact BitVec.getLsbD_of_ge _ _ (by omega)
    · simp [hi64]
      exact BitVec.getLsbD_of_ge _ _ (by omega)

theorem shlLimbs_nonpos (a : Value) {n : Int} (h : n ≤ 0) : shlLimbs a n = a := by
  simp [shlLimbs, h]

theorem shrLimbs_nonpos (a : Value) {n : Int} (h : n ≤ 0) : shrLimbs a n = a := by
  simp [shrLimbs, h]

/-- R89, R104: a shift by any signed count, as the shift of the whole value. -/
theorem shlLimbs_eq (a : Value) (n : Int) : shlLimbs a n = a <<< n.toNat := by
  by_cases h : n ≤ 0
  · rw [shlLimbs_nonpos a h, Int.toNat_of_nonpos h]; simp
  · rw [← shlLimbs_of_nat, Int.toNat_of_nonneg (by omega)]

/-- R90, R104. -/
theorem shrLimbs_eq (a : Value) (n : Int) : shrLimbs a n = a >>> n.toNat := by
  by_cases h : n ≤ 0
  · rw [shrLimbs_nonpos a h, Int.toNat_of_nonpos h]; simp
  · rw [← shrLimbs_of_nat, Int.toNat_of_nonneg (by omega)]

/-! ## Comparisons (R91 to R96) -/

theorem eqLimbs_eq (a b : Value) : eqLimbs a b = decide (a = b) := by
  rw [eqLimbs, ← Bool.decide_and, decide_eq_decide]
  exact ⟨fun h => value_ext h.1 h.2, fun h => by simp [h]⟩

theorem neLimbs_eq (a b : Value) : neLimbs a b = decide (a ≠ b) := by
  have h := eqLimbs_eq a b
  rw [neLimbs, ← Bool.decide_or, decide_eq_decide]
  rw [eqLimbs, ← Bool.decide_and, decide_eq_decide] at h
  rw [Ne, Ne, Ne, ← h]; tauto

theorem ltuLimbs_eq (a b : Value) : ltuLimbs a b = decide (a < b) := by
  have ha := toNat_eq_limbs a
  have hb := toNat_eq_limbs b
  have h1 := (lo a).isLt
  have h2 := (lo b).isLt
  rw [ltuLimbs, ← Bool.decide_and, ← Bool.decide_or, decide_eq_decide]
  simp only [BitVec.lt_def, ← BitVec.toNat_inj]
  omega

theorem leuLimbs_eq (a b : Value) : leuLimbs a b = decide (a ≤ b) := by
  have ha := toNat_eq_limbs a
  have hb := toNat_eq_limbs b
  have h1 := (lo a).isLt
  have h2 := (lo b).isLt
  rw [leuLimbs, ← Bool.decide_and, ← Bool.decide_or, decide_eq_decide]
  simp only [BitVec.lt_def, BitVec.le_def, ← BitVec.toNat_inj]
  omega

theorem gtuLimbs_eq (a b : Value) : gtuLimbs a b = decide (b < a) := by
  have ha := toNat_eq_limbs a
  have hb := toNat_eq_limbs b
  have h1 := (lo a).isLt
  have h2 := (lo b).isLt
  rw [gtuLimbs, ← Bool.decide_and, ← Bool.decide_or, decide_eq_decide]
  simp only [BitVec.lt_def, ← BitVec.toNat_inj]
  omega

theorem geuLimbs_eq (a b : Value) : geuLimbs a b = decide (b ≤ a) := by
  have ha := toNat_eq_limbs a
  have hb := toNat_eq_limbs b
  have h1 := (lo a).isLt
  have h2 := (lo b).isLt
  rw [geuLimbs, ← Bool.decide_and, ← Bool.decide_or, decide_eq_decide]
  simp only [BitVec.lt_def, BitVec.le_def, ← BitVec.toNat_inj]
  omega

end Sys2Proof.Machine
end

