-- ==== Sys2Proof/Laws/Counts.lean ====
section
/-!
SUPPORT. Laws of the count unit (R14, R97 to R100): what a count says of the bits, and that the counts taken limb by
limb are the counts of the whole value.
-/

namespace Sys2Proof.Machine

/-! ## Counting from the top -/

theorem leadingZeros_le {w : Nat} (v : BitVec w) (n : Nat) : leadingZeros v n ≤ n := by
  induction n with
  | zero => simp [leadingZeros]
  | succ n ih => simp only [leadingZeros]; split <;> omega

theorem leadingZeros_zero_bits {w : Nat} (v : BitVec w) (n : Nat) :
    ∀ i, n - leadingZeros v n ≤ i → i < n → v.getLsbD i = false := by
  induction n with
  | zero => intro i _ h; omega
  | succ n ih =>
    intro i h1 h2
    simp only [leadingZeros] at h1
    split at h1
    · omega
    · rename_i hb
      by_cases hin : i = n
      · subst hin; simpa using hb
      · exact ih i (by omega) (by omega)

theorem leadingZeros_one_bit {w : Nat} (v : BitVec w) (n : Nat) (h : leadingZeros v n < n) :
    v.getLsbD (n - 1 - leadingZeros v n) = true := by
  induction n with
  | zero => omega
  | succ n ih =>
    simp only [leadingZeros] at h ⊢
    split at h
    · rename_i hb; simp [hb]
    · rename_i hb
      have h' := ih (by omega)
      simp only [hb, Bool.false_eq_true, if_false]
      rwa [show n + 1 - 1 - (leadingZeros v n + 1) = n - 1 - leadingZeros v n by omega]

/-! ## Counting from the bottom -/

theorem trailingZeros_le {w : Nat} (v : BitVec w) (i n : Nat) : trailingZeros v i n ≤ n := by
  induction n generalizing i with
  | zero => simp [trailingZeros]
  | succ n ih =>
    have := ih (i + 1)
    simp only [trailingZeros]; split <;> omega

theorem trailingZeros_zero_bits {w : Nat} (v : BitVec w) (i n : Nat) :
    ∀ j, i ≤ j → j < i + trailingZeros v i n → v.getLsbD j = false := by
  induction n generalizing i with
  | zero => intro j h1 h2; simp only [trailingZeros] at h2; omega
  | succ n ih =>
    intro j h1 h2
    simp only [trailingZeros] at h2
    split at h2
    · omega
    · rename_i hb
      by_cases hij : j = i
      · subst hij; simpa using hb
      · exact ih (i + 1) j (by omega) (by omega)

theorem trailingZeros_one_bit {w : Nat} (v : BitVec w) (i n : Nat) (h : trailingZeros v i n < n) :
    v.getLsbD (i + trailingZeros v i n) = true := by
  induction n generalizing i with
  | zero => omega
  | succ n ih =>
    simp only [trailingZeros] at h ⊢
    split at h
    · rename_i hb; simp [hb]
    · rename_i hb
      have h' := ih (i + 1) (by omega)
      simp only [hb, Bool.false_eq_true, if_false]
      rwa [show i + (trailingZeros v (i + 1) n + 1) = i + 1 + trailingZeros v (i + 1) n by omega]

/-! ## The whole value -/

theorem limb_ne_zero_of_bit {x : Limb} {i : Nat} (h : x.getLsbD i = true) : x ≠ 0 := by
  rintro rfl; simp at h

theorem limb_zero_bit {x : Limb} (h : ¬ x ≠ 0) (i : Nat) : x.getLsbD i = false := by
  have : x = 0 := by simpa using h
  simp [this]

theorem clz64_lt {x : Limb} (h : x ≠ 0) : clz64 x < 64 := by
  by_contra hn
  have h64 : leadingZeros x 64 = 64 := by
    have := leadingZeros_le x 64
    unfold clz64 at hn; omega
  apply h
  apply BitVec.eq_of_getLsbD_eq
  intro i hi'
  simpa using leadingZeros_zero_bits x 64 i (by omega) hi'

theorem ctz64_lt {x : Limb} (h : x ≠ 0) : ctz64 x < 64 := by
  by_contra hn
  have h64 : trailingZeros x 0 64 = 64 := by
    have := trailingZeros_le x 0 64
    unfold ctz64 at hn; omega
  apply h
  apply BitVec.eq_of_getLsbD_eq
  intro i hi'
  simpa using trailingZeros_zero_bits x 0 64 i (by omega) (by omega)

/-- Bit `i` of a value, by its limbs. -/
theorem getLsbD_limbs (v : Value) (i : Nat) :
    v.getLsbD i = if i < 64 then (lo v).getLsbD i else (hi v).getLsbD (i - 64) := by
  rw [← getLsbD_pair, pair_hi_lo]

theorem clzLimbs_le (a : Value) : clzLimbs a ≤ 128 := by
  unfold clzLimbs
  have h1 := leadingZeros_le (hi a) 64
  have h2 := leadingZeros_le (lo a) 64
  split <;> simp only [clz64] <;> omega

theorem clzLimbs_zero_bits (a : Value) (i : Nat) (h1 : 128 - clzLimbs a ≤ i) (h2 : i < 128) :
    a.getLsbD i = false := by
  rw [getLsbD_limbs]
  unfold clzLimbs at h1
  split at h1
  · rename_i hh
    have := clz64_lt hh
    have h64 : ¬ i < 64 := by omega
    simp only [h64, if_false]
    exact leadingZeros_zero_bits (hi a) 64 (i - 64) (by unfold clz64 at *; omega) (by omega)
  · rename_i hh
    split
    · exact leadingZeros_zero_bits (lo a) 64 i (by unfold clz64 at *; omega) (by omega)
    · exact limb_zero_bit hh _

theorem clzLimbs_one_bit (a : Value) (h : clzLimbs a < 128) : a.getLsbD (127 - clzLimbs a) = true := by
  rw [getLsbD_limbs]
  unfold clzLimbs at h ⊢
  split
  · rename_i hh
    have hlt := clz64_lt hh
    have h64 : ¬ 127 - clz64 (hi a) < 64 := by omega
    simp only [h64, if_false]
    have := leadingZeros_one_bit (hi a) 64 (by unfold clz64 at *; omega)
    rwa [show 127 - clz64 (hi a) - 64 = 64 - 1 - leadingZeros (hi a) 64 by unfold clz64 at *; omega]
  · rename_i hh
    simp only [hh, if_false] at h
    have h64 : 127 - (64 + clz64 (lo a)) < 64 := by omega
    simp only [h64, if_true]
    have := leadingZeros_one_bit (lo a) 64 (by unfold clz64 at *; omega)
    rwa [show 127 - (64 + clz64 (lo a)) = 64 - 1 - leadingZeros (lo a) 64 by unfold clz64 at *; omega]

theorem ctzLimbs_le (a : Value) : ctzLimbs a ≤ 128 := by
  unfold ctzLimbs
  have h1 := trailingZeros_le (hi a) 0 64
  have h2 := trailingZeros_le (lo a) 0 64
  split <;> simp only [ctz64] <;> omega

theorem ctzLimbs_zero_bits (a : Value) (i : Nat) (h1 : i < ctzLimbs a) : a.getLsbD i = false := by
  rw [getLsbD_limbs]
  unfold ctzLimbs at h1
  split at h1
  · rename_i hl
    have := ctz64_lt hl
    have h64 : i < 64 := by omega
    simp only [h64, if_true]
    exact trailingZeros_zero_bits (lo a) 0 64 i (by omega) (by unfold ctz64 at *; omega)
  · rename_i hl
    split
    · exact limb_zero_bit hl _
    · exact trailingZeros_zero_bits (hi a) 0 64 (i - 64) (by omega) (by unfold ctz64 at *; omega)

theorem ctzLimbs_one_bit (a : Value) (h : ctzLimbs a < 128) : a.getLsbD (ctzLimbs a) = true := by
  rw [getLsbD_limbs]
  unfold ctzLimbs at h ⊢
  split
  · rename_i hl
    have hlt := ctz64_lt hl
    simp only [hlt, if_true]
    have := trailingZeros_one_bit (lo a) 0 64 (by unfold ctz64 at *; omega)
    simpa [ctz64] using this
  · rename_i hl
    simp only [hl, if_false] at h
    have := trailingZeros_one_bit (hi a) 0 64 (by unfold ctz64 at *; omega)
    simpa [ctz64] using this

/-! ## The effective length (R99) -/

theorem lt_two_pow_effLen (a : Value) : a.toNat < 2 ^ effLen a := by
  apply Nat.lt_pow_two_of_testBit
  intro i h
  by_cases hi' : i < 128
  · exact clzLimbs_zero_bits a i (by unfold effLen at h; omega) hi'
  · exact Nat.testBit_lt_two_pow (lt_of_lt_of_le a.isLt (Nat.pow_le_pow_right (by omega) (by omega)))

theorem two_pow_le_of_effLen (a : Value) (h : 0 < effLen a) : 2 ^ (effLen a - 1) ≤ a.toNat := by
  have hb := clzLimbs_one_bit a (by unfold effLen at h; omega)
  apply Nat.ge_two_pow_of_testBit
  unfold effLen
  rwa [show 128 - clzLimbs a - 1 = 127 - clzLimbs a by omega]

theorem effLen_le (a : Value) : effLen a ≤ 128 := by unfold effLen; omega

theorem effLen_pos {a : Value} (h : a ≠ 0) : 0 < effLen a := by
  by_contra hn
  apply h
  apply BitVec.eq_of_toNat_eq
  have := lt_two_pow_effLen a
  rw [show effLen a = 0 by omega] at this
  simp only [Nat.pow_zero] at this
  simpa using this

/-- The bit length is the only `n` with `2^(n-1) ≤ v < 2^n`. -/
theorem effLen_unique {v : Value} {n : Nat} (h1 : v.toNat < 2 ^ n) (h2 : 2 ^ (n - 1) ≤ v.toNat) (hn : 0 < n) :
    effLen v = n := by
  have ha := lt_two_pow_effLen v
  have hv : v ≠ 0 := by rintro rfl; simp at h2
  have hp := effLen_pos hv
  have hb := two_pow_le_of_effLen v hp
  have hc := (Nat.pow_lt_pow_iff_right (a := 2) (by omega)).1 (lt_of_le_of_lt h2 ha)
  have hd := (Nat.pow_lt_pow_iff_right (a := 2) (by omega)).1 (lt_of_le_of_lt hb h1)
  omega

/-! ## Powers of two (R100) -/

theorem toNat_and_pred_eq_zero {n : Nat} (h0 : n ≠ 0) (h : n &&& (n - 1) = 0) : ∃ k, n = 2 ^ k := by
  refine ⟨Nat.log2 n, ?_⟩
  have h1 := Nat.log2_self_le h0
  have h2 := @Nat.lt_log2_self n
  by_contra hne
  have htop : Nat.testBit n (Nat.log2 n) = true := by
    rw [Nat.testBit_eq_decide_div_mod_eq]
    have : n / 2 ^ Nat.log2 n = 1 := by
      apply Nat.div_eq_of_lt_le <;> rw [pow_succ] at h2 <;> omega
    simp [this]
  have htop' : Nat.testBit (n - 1) (Nat.log2 n) = true := by
    rw [Nat.testBit_eq_decide_div_mod_eq]
    have : (n - 1) / 2 ^ Nat.log2 n = 1 := by
      apply Nat.div_eq_of_lt_le <;> rw [pow_succ] at h2 <;> omega
    simp [this]
  have := congrArg (fun m => Nat.testBit m (Nat.log2 n)) h
  simp [Nat.testBit_and, htop, htop'] at this

theorem isPow2_iff (v : Value) : isPow2 v = true ↔ ∃ k < 128, v.toNat = 2 ^ k := by
  rw [isPow2, subLimbs_eq, ← Bool.decide_and, decide_eq_true_iff]
  constructor
  · rintro ⟨h0, h⟩
    have hn : v.toNat ≠ 0 := by
      intro he; apply h0; apply BitVec.eq_of_toNat_eq; simpa using he
    have h' := congrArg BitVec.toNat h
    rw [BitVec.toNat_and, BitVec.toNat_sub_of_le (by rw [BitVec.le_def]; change 1 ≤ v.toNat; omega)] at h'
    obtain ⟨k, hk⟩ := toNat_and_pred_eq_zero hn (by simpa using h')
    refine ⟨k, ?_, hk⟩
    have := v.isLt
    rw [hk] at this
    exact (Nat.pow_lt_pow_iff_right (by omega)).1 this
  · rintro ⟨k, hk, hv⟩
    have hpos : 0 < v.toNat := by rw [hv]; exact Nat.two_pow_pos k
    refine ⟨by rintro rfl; simp at hpos, ?_⟩
    apply BitVec.eq_of_toNat_eq
    rw [BitVec.toNat_and, BitVec.toNat_sub_of_le (by rw [BitVec.le_def]; change 1 ≤ v.toNat; omega), hv]
    simp

theorem ctzLimbs_of_two_pow {v : Value} {k : Nat} (hv : v.toNat = 2 ^ k) (hk : k < 128) : ctzLimbs v = k := by
  have hbit : ∀ i, v.getLsbD i = decide (k = i) := by
    intro i
    rw [BitVec.getLsbD, hv, Nat.testBit_two_pow]
  have hlt : ctzLimbs v < 128 := by
    by_contra hn
    have := ctzLimbs_zero_bits v k (by omega)
    rw [hbit] at this; simp at this
  have := ctzLimbs_one_bit v hlt
  rw [hbit] at this
  simpa using (of_decide_eq_true this).symm

end Sys2Proof.Machine
end

