-- ==== Sys2Proof/Laws/Divrem.lean ====
section
/-!
SUPPORT. The law of the generic division engine (R137): the pair `divrem` computes is the floor quotient and
remainder, on every path of R136.
-/

namespace Sys2Proof.Machine

theorem value_ne_zero {v : Value} (h : v ≠ 0) : 0 < v.toNat := by
  apply Nat.pos_of_ne_zero
  intro h0; apply h; apply BitVec.eq_of_toNat_eq; simpa using h0

/-- A pair of values is the quotient and remainder if their numbers are. -/
theorem quotRem_ext {a b q r : Value} (hq : q.toNat = a.toNat / b.toNat) (hr : r.toNat = a.toNat % b.toNat) :
    (q, r) = (a / b, a % b) := by
  apply Prod.ext <;> apply BitVec.eq_of_toNat_eq <;> simpa

theorem toNat_double_or_one {q : Value} (h : q.toNat * 2 < 2 ^ 128) :
    (shlLimbs q 1 ||| 1).toNat = q.toNat * 2 + 1 := by
  rw [shlLimbs_eq, BitVec.toNat_or, show (Int.toNat 1) = 1 from rfl, BitVec.toNat_shiftLeft,
    Nat.shiftLeft_eq, Nat.pow_one, Nat.mod_eq_of_lt h]
  have := Nat.two_pow_add_eq_or_of_lt (b := 1) (i := 1) (by norm_num) q.toNat
  simp only [Nat.pow_one] at this
  change q.toNat * 2 ||| 1 = _
  rw [Nat.mul_comm, ← this]

theorem toNat_double {q : Value} (h : q.toNat * 2 < 2 ^ 128) : (shlLimbs q 1).toNat = q.toNat * 2 := by
  rw [shlLimbs_eq, show (Int.toNat 1) = 1 from rfl, BitVec.toNat_shiftLeft, Nat.shiftLeft_eq, Nat.pow_one,
    Nat.mod_eq_of_lt h]

theorem toNat_halve (d : Value) : (shrLimbs d 1).toNat = d.toNat / 2 := by
  rw [shrLimbs_eq, show (Int.toNat 1) = 1 from rfl, BitVec.toNat_ushiftRight, Nat.shiftRight_eq_div_pow,
    Nat.pow_one]

/-- R137: the restoring loop, with `n` iterations to go, completes the quotient and leaves the remainder. -/
theorem restoring_spec {b : Nat} (hb : 0 < b) (n : Nat) (q r d : Value)
    (hd : 0 < n → d.toNat = b * 2 ^ (n - 1)) (hr : r.toNat < b * 2 ^ n)
    (hq : q.toNat * 2 ^ n + r.toNat / b < 2 ^ 128) :
    (restoring n q r d).1.toNat = q.toNat * 2 ^ n + r.toNat / b ∧
      (restoring n q r d).2.toNat = r.toNat % b := by
  induction n generalizing q r d with
  | zero =>
    simp only [Nat.pow_zero, Nat.mul_one] at hr ⊢
    simp [restoring, Nat.div_eq_of_lt hr, Nat.mod_eq_of_lt hr]
  | succ n ih =>
    have hd' : d.toNat = b * 2 ^ n := hd (by omega)
    have hpow : 0 < 2 ^ n := Nat.two_pow_pos n
    have hq2 : q.toNat * 2 < 2 ^ 128 := by
      have : q.toNat * 2 ≤ q.toNat * 2 ^ (n + 1) := by
        apply Nat.mul_le_mul_left; rw [Nat.pow_succ]; omega
      exact lt_of_le_of_lt (le_trans this (Nat.le_add_right _ _)) hq
    have hnext : 0 < n → (shrLimbs d 1).toNat = b * 2 ^ (n - 1) := by
      intro h
      obtain ⟨m, rfl⟩ : ∃ m, n = m + 1 := ⟨n - 1, by omega⟩
      rw [toNat_halve, hd', Nat.pow_succ, ← Nat.mul_assoc]
      simp
    rw [Nat.pow_succ] at hr hq
    simp only [restoring, ltuLimbs_eq, decide_eq_true_eq, BitVec.lt_def]
    split
    · rename_i hlt
      have h2 := toNat_double hq2
      have := ih (shlLimbs q 1) r (shrLimbs d 1) hnext (by omega)
        (by rw [h2]; calc _ = q.toNat * (2 ^ n * 2) + r.toNat / b := by ring
              _ < _ := hq)
      rw [this.1, this.2, h2, Nat.pow_succ]
      exact ⟨by ring, rfl⟩
    · rename_i hge
      have h2 := toNat_double_or_one hq2
      have hsub : (subLimbs r d).toNat = r.toNat - b * 2 ^ n := by
        rw [subLimbs_eq, BitVec.toNat_sub_of_le (by rw [BitVec.le_def]; omega), hd']
      obtain ⟨r', hr'⟩ : ∃ r', r.toNat = r' + b * 2 ^ n := ⟨r.toNat - b * 2 ^ n, by omega⟩
      have hdiv : r.toNat / b = r' / b + 2 ^ n := by rw [hr', Nat.add_mul_div_left _ _ hb]
      have hmod : r.toNat % b = r' % b := by rw [hr', Nat.add_mul_mod_self_left]
      have hsub' : (subLimbs r d).toNat = r' := by omega
      have := ih (shlLimbs q 1 ||| 1) (subLimbs r d) (shrLimbs d 1) hnext
        (by rw [hsub']; have : b * (2 ^ n * 2) = b * 2 ^ n + b * 2 ^ n := by ring
            omega)
        (by rw [h2, hsub']
            calc _ = q.toNat * (2 ^ n * 2) + (r' / b + 2 ^ n) := by ring
              _ < _ := by rw [← hdiv]; exact hq)
      rw [this.1, this.2, h2, hsub', hdiv, hmod, Nat.pow_succ]
      exact ⟨by ring, rfl⟩

/-- R138: the aligned divisor loses no bit and has the dividend's length. -/
theorem aligned_divisor {a b : Value} (hb : b ≠ 0) (hab : b.toNat ≤ a.toNat) :
    (shlLimbs b (alignShift a b)).toNat = b.toNat * 2 ^ alignShift a b ∧
      a.toNat < b.toNat * 2 ^ (alignShift a b + 1) := by
  have hbp := value_ne_zero hb
  have ha : a ≠ 0 := by rintro rfl; simp at hab; omega
  have hla := lt_two_pow_effLen a
  have hlb := lt_two_pow_effLen b
  have hgb := two_pow_le_of_effLen b (effLen_pos hb)
  have hga := two_pow_le_of_effLen a (effLen_pos ha)
  have hb0 := effLen_pos hb
  have ha0 := effLen_pos ha
  have hle : effLen b ≤ effLen a := by
    by_contra hn
    have : 2 ^ effLen a ≤ 2 ^ (effLen b - 1) := Nat.pow_le_pow_right (by omega) (by omega)
    omega
  have hsum : effLen b + alignShift a b = effLen a := by unfold alignShift; omega
  have hbound : b.toNat * 2 ^ alignShift a b < 2 ^ 128 := by
    calc b.toNat * 2 ^ alignShift a b < 2 ^ effLen b * 2 ^ alignShift a b :=
          Nat.mul_lt_mul_of_pos_right hlb (Nat.two_pow_pos _)
      _ = 2 ^ effLen a := by rw [← Nat.pow_add, hsum]
      _ ≤ 2 ^ 128 := Nat.pow_le_pow_right (by omega) (effLen_le a)
  refine ⟨?_, ?_⟩
  · rw [shlLimbs_of_nat, BitVec.toNat_shiftLeft, Nat.shiftLeft_eq, Nat.mod_eq_of_lt hbound]
  · calc a.toNat < 2 ^ effLen a := hla
      _ = 2 ^ (effLen b - 1) * 2 ^ (alignShift a b + 1) := by
          rw [← Nat.pow_add]; congr 1; omega
      _ ≤ b.toNat * 2 ^ (alignShift a b + 1) := Nat.mul_le_mul_right _ hgb

theorem longDivision_eq {a b : Value} (hb : b ≠ 0) (hab : b.toNat ≤ a.toNat) :
    longDivision a b = (a / b, a % b) := by
  obtain ⟨h1, h2⟩ := aligned_divisor hb hab
  have hlt : a.toNat / b.toNat < 2 ^ 128 := lt_of_le_of_lt (Nat.div_le_self _ _) a.isLt
  have := restoring_spec (value_ne_zero hb) (alignShift a b + 1) 0 a (shlLimbs b (alignShift a b))
    (fun _ => by simpa using h1) h2 (by simpa using hlt)
  have hq : (longDivision a b).1.toNat = a.toNat / b.toNat := by
    rw [longDivision, this.1]; simp
  have hr : (longDivision a b).2.toNat = a.toNat % b.toNat := this.2
  rw [← Prod.mk.eta (p := longDivision a b)]
  exact quotRem_ext hq hr

/-- R136, R152: "shift + mask" is the division by a power of two. -/
theorem pow2Division_eq {a b : Value} (h : isPow2 b = true) : pow2Division a b = (a / b, a % b) := by
  obtain ⟨k, hk, hv⟩ := (isPow2_iff b).1 h
  have hpos : 0 < b.toNat := by rw [hv]; exact Nat.two_pow_pos k
  apply quotRem_ext
  · rw [shrLimbs_of_nat, BitVec.toNat_ushiftRight, ctzLimbs_of_two_pow hv hk, Nat.shiftRight_eq_div_pow, hv]
  · rw [subLimbs_eq, BitVec.toNat_and,
      BitVec.toNat_sub_of_le (by rw [BitVec.le_def]; change 1 ≤ b.toNat; omega), hv]
    exact Nat.and_two_pow_sub_one_eq_mod _ _

theorem quotRem_of_lt {a b : Value} (h : a.toNat < b.toNat) : (0, a) = (a / b, a % b) :=
  quotRem_ext (by simp [Nat.div_eq_of_lt h]) (Nat.mod_eq_of_lt h).symm

theorem divrem_zero (a : Value) : divrem a 0 = none := by simp [divrem]

/-- R137: `divrem(a, b) = (a div b, a mod b)`. -/
theorem divrem_eq (a : Value) {b : Value} (hb : b ≠ 0) : divrem a b = some (a / b, a % b) := by
  simp only [divrem, hb, if_false, ltuLimbs_eq, decide_eq_true_eq]
  split_ifs with h1 h2 h3 h4
  · rw [quotRem_of_lt h1]
  · subst h2
    congr 1
    exact quotRem_ext (by rw [Nat.div_self (value_ne_zero hb)]; rfl) (by simp)
  · subst h3
    congr 1
    exact quotRem_ext (by change _ = a.toNat / 1; simp) (by change _ = a.toNat % 1; rw [Nat.mod_one]; rfl)
  · rw [pow2Division_eq h4]
  · rw [longDivision_eq hb (by rw [BitVec.lt_def] at h1; omega)]

end Sys2Proof.Machine
end

