-- ==== Sys2Proof/Laws/Multiply.lean ====
section
/-!
SUPPORT. Laws of the multiplier (R120 to R125): the limbwise products are the exact products the rules name.
-/

namespace Sys2Proof.Machine

theorem limb_mul_lt (a b : Limb) : a.toNat * b.toNat < 2 ^ 64 * 2 ^ 64 :=
  Nat.mul_lt_mul'' a.isLt b.isLt

theorem toNat_mulhi64 (a b : Limb) : (mulhi64 a b).toNat = a.toNat * b.toNat / 2 ^ 64 := by
  have := limb_mul_lt a b
  rw [mulhi64, BitVec.toNat_ofNat, Nat.mod_eq_of_lt]
  omega

/-- R122: the 64×64→128 product is exact. -/
theorem toNat_mulWide (x m : Limb) : (mulWide x m).toNat = x.toNat * m.toNat := by
  rw [mulWide, toNat_pair, toNat_mulhi64, BitVec.toNat_mul]
  omega

/-- R120: the portable form has the exact value. -/
theorem mulhiPortable_eq (a b : Limb) : mulhiPortable a b = mulhi64 a b := by
  have ha : a.toNat = a.toNat / 2 ^ 32 * 2 ^ 32 + a.toNat % 2 ^ 32 := by omega
  have hb : b.toNat = b.toNat / 2 ^ 32 * 2 ^ 32 + b.toNat % 2 ^ 32 := by omega
  unfold mulhiPortable mulhi64
  generalize a.toNat / 2 ^ 32 = a1 at *
  generalize a.toNat % 2 ^ 32 = a0 at *
  generalize b.toNat / 2 ^ 32 = b1 at *
  generalize b.toNat % 2 ^ 32 = b0 at *
  rw [ha, hb]
  have hexp : (a1 * 2 ^ 32 + a0) * (b1 * 2 ^ 32 + b0)
      = a1 * b1 * 2 ^ 64 + (a0 * b1 + a1 * b0) * 2 ^ 32 + a0 * b0 := by ring
  rw [hexp]
  dsimp only
  generalize a1 * b1 = p11
  generalize a0 * b1 = p01
  generalize a1 * b0 = p10
  generalize a0 * b0 = p00
  have : p11 + p01 / 2 ^ 32 + p10 / 2 ^ 32 + (p00 / 2 ^ 32 + p01 % 2 ^ 32 + p10 % 2 ^ 32) / 2 ^ 32
      = (p11 * 2 ^ 64 + (p01 + p10) * 2 ^ 32 + p00) / 2 ^ 64 := by omega
  rw [this]

/-- R121: the truncating product. -/
theorem mulLimbs_eq (a b : Value) : mulLimbs a b = a * b := by
  apply BitVec.eq_of_toNat_eq
  have ha := toNat_eq_limbs a
  have hb := toNat_eq_limbs b
  have hw := toNat_eq_limbs (mulWide (lo a) (lo b))
  rw [toNat_mulWide] at hw
  rw [mulLimbs, toNat_pair, BitVec.toNat_mul, ha, hb]
  simp only [BitVec.toNat_add, BitVec.toNat_mul]
  have hexp : ((hi a).toNat * 2 ^ 64 + (lo a).toNat) * ((hi b).toNat * 2 ^ 64 + (lo b).toNat)
      = (hi a).toNat * (hi b).toNat * 2 ^ 128
        + ((lo a).toNat * (hi b).toNat + (hi a).toNat * (lo b).toNat) * 2 ^ 64
        + (lo a).toNat * (lo b).toNat := by ring
  have hl := (lo (mulWide (lo a) (lo b))).isLt
  have hh := (hi (mulWide (lo a) (lo b))).isLt
  rw [hexp, hw]
  generalize (hi a).toNat * (hi b).toNat = p11
  generalize (lo a).toNat * (hi b).toNat = p01
  generalize (hi a).toNat * (lo b).toNat = p10
  omega

/-- R123: `Y.lo = (a · m) div 2^128` exactly. -/
theorem toNat_fmulHigh (a : Value) (m : Limb) : (fmulHigh a m).toNat = a.toNat * m.toNat / 2 ^ 128 := by
  have ha := toNat_eq_limbs a
  have hm := m.isLt
  have hb : a.toNat * m.toNat / 2 ^ 128 < 2 ^ 64 := by
    rw [Nat.div_lt_iff_lt_mul (by positivity)]
    calc a.toNat * m.toNat < 2 ^ 128 * 2 ^ 64 := Nat.mul_lt_mul'' a.isLt hm
      _ = 2 ^ 64 * 2 ^ 128 := by ring
  have hexp : a.toNat * m.toNat = (hi a).toNat * m.toNat * 2 ^ 64 + (lo a).toNat * m.toNat := by
    rw [ha]; ring
  have hpl := limb_mul_lt (lo a) m
  have hdiv : ((hi a).toNat * m.toNat * 2 ^ 64 + (lo a).toNat * m.toNat) / 2 ^ 128
      = ((hi a).toNat * m.toNat + (lo a).toNat * m.toNat / 2 ^ 64) / 2 ^ 64 := by
    rw [show 2 ^ 128 = 2 ^ 64 * 2 ^ 64 by norm_num, ← Nat.div_div_eq_div_mul]
    congr 1
    omega
  rw [hexp, hdiv] at hb ⊢
  clear ha hexp hdiv
  simp only [fmulHigh, carryFrom, BitVec.toNat_add, toNat_mulhi64, BitVec.toNat_mul]
  generalize (hi a).toNat * m.toNat = ph at *
  generalize (lo a).toNat * m.toNat = pl at *
  split <;> simp <;> omega

/-- R125: the bound that lets Algorithm D use `FMULH64` as the top word of `q̂ · v`. -/
theorem fmulHigh_lt (a : Value) (m : Limb) (h : m ≠ 0) : (fmulHigh a m).toNat < m.toNat := by
  have hm : 0 < m.toNat := by
    apply Nat.pos_of_ne_zero; intro h0; apply h; apply BitVec.eq_of_toNat_eq; simpa using h0
  rw [toNat_fmulHigh, Nat.div_lt_iff_lt_mul (by positivity), Nat.mul_comm]
  exact Nat.mul_lt_mul_of_pos_left a.isLt hm

end Sys2Proof.Machine
end

