-- ==== Sys2Proof/Laws/Knuth.lean ====
section
/-!
SUPPORT. The law of the optimized division engine (R150): every path of R151 gives the floor quotient and remainder.
Algorithm D is proved from the numbers of its steps: the trial digit is at most two too large (R161), the correction
loop lowers it exactly to the digit, and step 3 then never borrows.
-/

namespace Sys2Proof.Machine

/-! ## Paths 4 and 5 (R153) -/

/-- The divisor a list of stages divides by. -/
def stageProduct (ds : List Value) : Nat := (ds.map BitVec.toNat).prod

/-- R153: "Whatever the stages, the combination gives the exact pair". -/
theorem chained_spec (ds : List Value) (hpos : ∀ d ∈ ds, 0 < d.toNat) (a : Value) :
    (chained a ds).1.toNat = a.toNat / stageProduct ds ∧
      (chained a ds).2.toNat = a.toNat % stageProduct ds := by
  induction ds generalizing a with
  | nil => simp [chained, stageProduct, Nat.mod_one]
  | cons d ds ih =>
    obtain ⟨h1, h2⟩ := ih (fun e he => hpos e (List.mem_cons_of_mem d he)) (a / d)
    have hprod : stageProduct (d :: ds) = d.toNat * stageProduct ds := by simp [stageProduct]
    rw [BitVec.toNat_udiv] at h1 h2
    refine ⟨?_, ?_⟩
    · rw [chained, h1, hprod, Nat.div_div_eq_div_mul]
    · have hmod := Nat.mod_mul (x := a.toNat) (a := d.toNat) (b := stageProduct ds)
      have hle : a.toNat % (d.toNat * stageProduct ds) < 2 ^ 128 :=
        lt_of_le_of_lt (Nat.mod_le _ _) a.isLt
      rw [hprod]
      simp only [chained, mulLimbs_eq, BitVec.toNat_add, BitVec.toNat_mul, BitVec.toNat_umod, h2]
      rw [Nat.mod_add_mod, Nat.mod_eq_of_lt (by rw [Nat.mul_comm]; omega), hmod]
      ring

theorem stagesOf_spec {b : Value} {ds : List Value} (h : stagesOf b = some ds) :
    stageProduct ds = b.toNat ∧ ∀ d ∈ ds, 0 < d.toNat := by
  unfold stagesOf at h
  split_ifs at h with h1 h2 h3 h4 h5 h6 h7 h8 h9 <;>
    (injection h with h; subst h; subst b; simp [stageProduct])

theorem chained_eq {a b : Value} {ds : List Value} (h : stagesOf b = some ds) :
    chained a ds = (a / b, a % b) := by
  obtain ⟨hp, hpos⟩ := stagesOf_spec h
  obtain ⟨h1, h2⟩ := chained_spec ds hpos a
  rw [hp] at h1 h2
  rw [← Prod.mk.eta (p := chained a ds)]
  exact quotRem_ext h1 h2

/-! ## Paths 6 and 7 (R154, R155) -/

theorem toNat_of_hi_zero {v : Value} (h : hi v = 0) : v.toNat = (lo v).toNat := by
  rw [toNat_eq_limbs v, h]; simp

theorem singleLimb_eq {a b : Value} (ha : hi a = 0) (hb : hi b = 0) : singleLimb a b = (a / b, a % b) := by
  apply quotRem_ext <;> rw [toNat_pair, toNat_of_hi_zero ha, toNat_of_hi_zero hb] <;> simp

/-- R155: the second step's digit fits in a limb. -/
theorem twoByOne_digit_lt {r l d : Nat} (hr : r < d) (hl : l < 2 ^ 64) : (r * 2 ^ 64 + l) / d < 2 ^ 64 := by
  rw [Nat.div_lt_iff_lt_mul (by omega)]
  have : (r + 1) * 2 ^ 64 ≤ d * 2 ^ 64 := Nat.mul_le_mul_right _ hr
  rw [Nat.mul_comm (2 ^ 64) d]
  omega

theorem twoByOne_eq {a b : Value} (hb0 : b ≠ 0) (hb : hi b = 0) : twoByOne a b = (a / b, a % b) := by
  have hbl := toNat_of_hi_zero hb
  have hpos : 0 < (lo b).toNat := by rw [← hbl]; exact value_ne_zero hb0
  have hr := Nat.mod_lt (hi a).toNat hpos
  have hq := twoByOne_digit_lt hr (lo a).isLt
  have hd := (lo b).isLt
  have ha : a.toNat = (lo b).toNat * ((hi a).toNat / (lo b).toNat * 2 ^ 64)
      + ((hi a).toNat % (lo b).toNat * 2 ^ 64 + (lo a).toNat) := by
    have := Nat.div_add_mod (hi a).toNat (lo b).toNat
    rw [toNat_eq_limbs a]
    calc _ = ((lo b).toNat * ((hi a).toNat / (lo b).toNat) + (hi a).toNat % (lo b).toNat) * 2 ^ 64
            + (lo a).toNat := by rw [this]
      _ = _ := by ring
  have hm := Nat.mod_lt ((hi a).toNat % (lo b).toNat * 2 ^ 64 + (lo a).toNat) hpos
  apply quotRem_ext <;>
    simp only [toNat_pair, BitVec.toNat_udiv, BitVec.toNat_umod, BitVec.toNat_ofNat] <;> rw [hbl, ha]
  · rw [Nat.mul_add_div hpos, Nat.mod_eq_of_lt hq]
  · rw [Nat.mul_add_mod, Nat.mod_eq_of_lt (by omega)]
    simp

/-! ## Path 8: the digit (R157, R161)

`B` is the limb base; the normalized divisor is `V = v1·B + v0` with `2·v1 ≥ B`, and the dividend is
`U = n·B + u0`. -/

section Digit

variable {B v1 v0 n u0 : Nat}

/-- The trial digit is not too small. -/
theorem digit_le_trial (hv1 : 0 < v1) (hu0 : u0 < B) :
    (n * B + u0) / (v1 * B + v0) ≤ n / v1 := by
  rw [Nat.le_div_iff_mul_le hv1]
  have hB : 0 < B := by omega
  have h1 := Nat.div_mul_le_self (n * B + u0) (v1 * B + v0)
  generalize (n * B + u0) / (v1 * B + v0) = q at *
  by_contra hlt
  have : (n + 1) * B ≤ q * v1 * B := Nat.mul_le_mul_right _ (by omega)
  have h2 : q * (v1 * B + v0) = q * v1 * B + q * v0 := by ring
  have h3 : (n + 1) * B = n * B + B := by ring
  omega

/-- R161: the trial digit is at most two too large, because the divisor is normalized. -/
theorem trial_le_digit_add_two (hnorm : B ≤ 2 * v1) (hv0 : v0 < B) (hB : 0 < B)
    (hq : n / v1 < B) : n / v1 ≤ (n * B + u0) / (v1 * B + v0) + 2 := by
  have hV : 0 < v1 * B + v0 := by
    have : 0 < v1 * B := Nat.mul_pos (by omega) hB
    omega
  have hU : n * B + u0 < ((n * B + u0) / (v1 * B + v0) + 1) * (v1 * B + v0) := by
    have h := Nat.lt_mul_div_succ (n * B + u0) hV
    rwa [Nat.mul_comm (v1 * B + v0)] at h
  generalize (n * B + u0) / (v1 * B + v0) = d at *
  by_contra hlt
  have h2 : n / v1 * v1 ≤ n := Nat.div_mul_le_self n v1
  generalize n / v1 = k at *
  obtain ⟨j, rfl⟩ : ∃ j, k = j + 2 := ⟨k - 2, by omega⟩
  have h1 := lt_of_lt_of_le hU (Nat.mul_le_mul_right (v1 * B + v0) (show d + 1 ≤ j by omega))
  have h3 : (j + 2) * v1 * B ≤ n * B := Nat.mul_le_mul_right _ h2
  have h4 : (j + 2) * v0 ≤ B * B := Nat.mul_le_mul (by omega) (by omega)
  have h5 : B * B ≤ 2 * v1 * B := Nat.mul_le_mul_right _ hnorm
  nlinarith

/-- Knuth's test (R157) says exactly that the digit is too large. -/
theorem correction_test {q r : Nat} (hinv : q * v1 + r = n) :
    (r * B + u0 < q * v0) ↔ (n * B + u0 < q * (v1 * B + v0)) := by
  subst hinv
  have h1 : (q * v1 + r) * B = q * v1 * B + r * B := by ring
  have h2 : q * (v1 * B + v0) = q * v1 * B + q * v0 := by ring
  rw [h1, h2]; omega

end Digit

/-! ## Path 8: the correction loop on the machine's numbers -/

/-- The numbers of a normalized division. -/
structure Normalized.Ok (x : Normalized) : Prop where
  norm : 2 ^ 64 ≤ 2 * (hi x.v).toNat
  ext : x.u2.toNat < (hi x.v).toNat

/-- `U`, the normalized dividend (R156). -/
def Normalized.dividend (x : Normalized) : Nat := x.u2.toNat * 2 ^ 128 + x.u.toNat

/-- The top two limbs of `U`, the number step 2 divides (R157). -/
def Normalized.top (x : Normalized) : Nat := x.u2.toNat * 2 ^ 64 + (hi x.u).toNat

theorem Normalized.dividend_eq (x : Normalized) : x.dividend = x.top * 2 ^ 64 + (lo x.u).toNat := by
  unfold Normalized.dividend Normalized.top
  rw [toNat_eq_limbs x.u]; ring

theorem trialDigit_lt {x : Normalized} (h : x.Ok) : (trialDigit x).1 < 2 ^ 64 :=
  twoByOne_digit_lt h.ext (hi x.u).isLt

theorem digit_le_trialDigit {x : Normalized} (h : x.Ok) :
    x.dividend / x.v.toNat ≤ (trialDigit x).1 := by
  rw [x.dividend_eq, toNat_eq_limbs x.v]
  exact digit_le_trial (by have := h.norm; omega) (lo x.u).isLt

theorem trialDigit_le {x : Normalized} (h : x.Ok) :
    (trialDigit x).1 ≤ x.dividend / x.v.toNat + 2 := by
  rw [x.dividend_eq, toNat_eq_limbs x.v]
  exact trial_le_digit_add_two h.norm (lo x.v).isLt (by norm_num) (trialDigit_lt h)

theorem trialDigit_inv {x : Normalized} (h : x.Ok) :
    (trialDigit x).1 * (hi x.v).toNat + (trialDigit x).2 = x.top := by
  have := h.norm
  rw [Nat.mul_comm]
  exact Nat.div_add_mod x.top (hi x.v).toNat

/-- R161: the correction loop, given as many tries as the digit is too large, ends at the digit. -/
theorem correctDigit_spec {x : Normalized} (h : x.Ok) (k q r : Nat)
    (hinv : q * (hi x.v).toNat + r = x.top) (hq : q < 2 ^ 64) (hlow : x.dividend / x.v.toNat ≤ q)
    (hup : q ≤ x.dividend / x.v.toNat + k) :
    (correctDigit x k (q, r)).1 = x.dividend / x.v.toNat := by
  have hV : 0 < x.v.toNat := by
    have := h.norm
    rw [toNat_eq_limbs x.v]; omega
  generalize hQ : x.dividend / x.v.toNat = Q at *
  induction k generalizing q r with
  | zero => simp only [correctDigit]; omega
  | succ k ih =>
    have htest := correction_test (B := 2 ^ 64) (v0 := (lo x.v).toNat) (u0 := (lo x.u).toNat) hinv
    rw [← x.dividend_eq, ← toNat_eq_limbs x.v] at htest
    simp only [correctDigit]
    split
    · rename_i ht
      have hlt : Q < q := by
        rw [← hQ, Nat.div_lt_iff_lt_mul hV]; exact htest.1 ht
      obtain ⟨p, rfl⟩ : ∃ p, q = p + 1 := ⟨q - 1, by omega⟩
      have hinv' : p * (hi x.v).toNat + (r + (hi x.v).toNat) = x.top := by
        rw [← hinv]; ring
      rw [Nat.add_sub_cancel]
      split
      · rename_i hbig
        have htest' := correction_test (B := 2 ^ 64) (v0 := (lo x.v).toNat) (u0 := (lo x.u).toNat) hinv'
        rw [← x.dividend_eq, ← toNat_eq_limbs x.v] at htest'
        have hno : ¬ ((r + (hi x.v).toNat) * 2 ^ 64 + (lo x.u).toNat < p * (lo x.v).toNat) := by
          have h1 : p * (lo x.v).toNat ≤ 2 ^ 64 * 2 ^ 64 :=
            Nat.mul_le_mul (by omega) (by have := (lo x.v).isLt; omega)
          have h2 : 2 ^ 64 * 2 ^ 64 ≤ (r + (hi x.v).toNat) * 2 ^ 64 := Nat.mul_le_mul_right _ hbig
          omega
        rw [htest', Nat.not_lt] at hno
        have : p ≤ Q := by rw [← hQ]; exact (Nat.le_div_iff_mul_le hV).2 hno
        change p = _
        omega
      · exact ih p (r + (hi x.v).toNat) hinv' (by omega) (by omega) (by omega)
    · rename_i ht
      rw [htest, Nat.not_lt] at ht
      have : q ≤ Q := by rw [← hQ]; exact (Nat.le_div_iff_mul_le hV).2 ht
      change q = _
      omega

theorem correctedDigit_eq {x : Normalized} (h : x.Ok) :
    (correctDigit x Config.correctionBound (trialDigit x)).1 = x.dividend / x.v.toNat :=
  correctDigit_spec h 2 _ _ (trialDigit_inv h) (trialDigit_lt h) (digit_le_trialDigit h) (trialDigit_le h)

theorem toNat_estimatedDigit {x : Normalized} (h : x.Ok) :
    (estimatedDigit x).toNat = x.dividend / x.v.toNat := by
  have h1 := trialDigit_lt h
  have h2 := digit_le_trialDigit h
  rw [estimatedDigit, BitVec.toNat_ofNat, correctedDigit_eq h, Nat.mod_eq_of_lt (by omega)]

/-! ## Path 8: multiply, subtract, add back (R158, R159) -/

theorem toNat_wideDividend (x : Normalized) : (wideDividend x).toNat = x.dividend := by
  rw [wideDividend, BitVec.toNat_append, ← Nat.shiftLeft_add_eq_or_of_lt x.u.isLt, Nat.shiftLeft_eq]
  rfl

theorem toNat_wideProduct (x : Normalized) (q : Limb) : (wideProduct x q).toNat = x.v.toNat * q.toNat := by
  have hdm := Nat.div_add_mod (x.v.toNat * q.toNat) (2 ^ 128)
  rw [wideProduct, BitVec.toNat_append, ← Nat.shiftLeft_add_eq_or_of_lt (BitVec.isLt _), Nat.shiftLeft_eq,
    toNat_fmulHigh, mulLimbs_eq, BitVec.toNat_mul, toNat_zextLimb]
  omega

/-- R161: after step 2, step 3 never borrows. -/
theorem not_borrows {x : Normalized} (h : x.Ok) : borrows x (estimatedDigit x) = false := by
  rw [borrows, decide_eq_false_iff_not, BitVec.lt_def, toNat_wideDividend, toNat_wideProduct,
    toNat_estimatedDigit h, Nat.not_lt]
  exact Nat.mul_div_le _ _

theorem addBack_eq {x : Normalized} (h : x.Ok) :
    (addBack x (estimatedDigit x)).1 = estimatedDigit x ∧
      (addBack x (estimatedDigit x)).2.toNat = x.dividend % x.v.toNat := by
  have hle := not_borrows h
  simp only [addBack, hle, Bool.false_eq_true, if_false, true_and]
  rw [borrows, decide_eq_false_iff_not, BitVec.lt_def, Nat.not_lt] at hle
  rw [BitVec.toNat_sub_of_le (by rw [BitVec.le_def]; exact hle), toNat_wideDividend, toNat_wideProduct,
    toNat_estimatedDigit h]
  have := Nat.div_add_mod x.dividend x.v.toNat
  omega

/-! ## Path 8: normalization (R156) -/

/-- The leading one bit of a non-zero limb, after the normalizing shift, stands in bit 63. -/
theorem clz64_bounds {x : Limb} (hx : x ≠ 0) :
    2 ^ (63 - clz64 x) ≤ x.toNat ∧ x.toNat < 2 ^ (64 - clz64 x) := by
  have hlt := clz64_lt hx
  refine ⟨?_, ?_⟩
  · apply Nat.ge_two_pow_of_testBit
    exact leadingZeros_one_bit x 64 hlt
  · apply Nat.lt_pow_two_of_testBit
    intro i hi'
    by_cases h : i < 64
    · exact leadingZeros_zero_bits x 64 i (by unfold clz64 at hi'; omega) h
    · exact Nat.testBit_lt_two_pow (lt_of_lt_of_le x.isLt (Nat.pow_le_pow_right (by omega) (by omega)))

theorem toNat_normalized_divisor {a b : Value} (hb : hi b ≠ 0) :
    (normalize a b).v.toNat = b.toNat * 2 ^ clz64 (hi b) := by
  have hs := clz64_lt hb
  obtain ⟨-, hlt⟩ := clz64_bounds hb
  have hbl := (lo b).isLt
  change (shlLimbs b (clz64 (hi b))).toNat = _
  rw [shlLimbs_of_nat, BitVec.toNat_shiftLeft, Nat.shiftLeft_eq, Nat.mod_eq_of_lt]
  calc b.toNat * 2 ^ clz64 (hi b)
      < 2 ^ (64 - clz64 (hi b)) * 2 ^ 64 * 2 ^ clz64 (hi b) := by
        apply Nat.mul_lt_mul_of_pos_right _ (Nat.two_pow_pos _)
        rw [toNat_eq_limbs b]
        have : ((hi b).toNat + 1) * 2 ^ 64 ≤ 2 ^ (64 - clz64 (hi b)) * 2 ^ 64 := Nat.mul_le_mul_right _ hlt
        omega
    _ = 2 ^ 128 := by rw [← Nat.pow_add, ← Nat.pow_add]; congr 1; omega

theorem normalized_dividend {a b : Value} (hb : hi b ≠ 0) :
    (normalize a b).dividend = a.toNat * 2 ^ clz64 (hi b) := by
  have hs := clz64_lt hb
  change (if clz64 (hi b) = 0 then 0 else hi a >>> (64 - clz64 (hi b)) : Limb).toNat * 2 ^ 128
    + (shlLimbs a (clz64 (hi b))).toNat = _
  rw [shlLimbs_of_nat, BitVec.toNat_shiftLeft, Nat.shiftLeft_eq]
  generalize clz64 (hi b) = s at *
  have hu2 : (if s = 0 then 0 else hi a >>> (64 - s) : Limb).toNat = a.toNat * 2 ^ s / 2 ^ 128 := by
    split
    · rename_i h0
      subst h0
      have := a.isLt
      simp only [Nat.pow_zero, Nat.mul_one]
      rw [Nat.div_eq_of_lt this]; rfl
    · rw [BitVec.toNat_ushiftRight, Nat.shiftRight_eq_div_pow, toNat_hi, Nat.div_div_eq_div_mul,
        ← Nat.pow_add, show 2 ^ 128 = 2 ^ (64 + (64 - s)) * 2 ^ s by rw [← Nat.pow_add]; congr 1; omega,
        Nat.mul_div_mul_right _ _ (Nat.two_pow_pos s)]
  rw [hu2, Nat.mul_comm (a.toNat * 2 ^ s / 2 ^ 128)]
  exact Nat.div_add_mod _ _

theorem normalize_ok {a b : Value} (hb : hi b ≠ 0) : (normalize a b).Ok := by
  have hs := clz64_lt hb
  obtain ⟨hge, -⟩ := clz64_bounds hb
  have hv := toNat_normalized_divisor (a := a) hb
  have hU := normalized_dividend (a := a) hb
  have hnorm : 2 ^ 63 ≤ (hi (normalize a b).v).toNat := by
    rw [toNat_hi, hv, Nat.le_div_iff_mul_le (by norm_num)]
    calc 2 ^ 63 * 2 ^ 64 = 2 ^ (63 - clz64 (hi b)) * 2 ^ 64 * 2 ^ clz64 (hi b) := by
          rw [← Nat.pow_add, ← Nat.pow_add, ← Nat.pow_add]; congr 1; omega
      _ ≤ b.toNat * 2 ^ clz64 (hi b) := by
          apply Nat.mul_le_mul_right
          have : 2 ^ (63 - clz64 (hi b)) * 2 ^ 64 ≤ (hi b).toNat * 2 ^ 64 := Nat.mul_le_mul_right _ hge
          rw [toNat_eq_limbs b]
          exact le_trans this (Nat.le_add_right _ _)
  refine ⟨by omega, ?_⟩
  have hlt : (normalize a b).dividend < 2 ^ 63 * 2 ^ 128 := by
    rw [hU]
    calc a.toNat * 2 ^ clz64 (hi b) < 2 ^ 128 * 2 ^ clz64 (hi b) :=
          Nat.mul_lt_mul_of_pos_right a.isLt (Nat.two_pow_pos _)
      _ ≤ 2 ^ 128 * 2 ^ 63 := Nat.mul_le_mul_left _ (Nat.pow_le_pow_right (by omega) (by omega))
      _ = 2 ^ 63 * 2 ^ 128 := by ring
  have : (normalize a b).u2.toNat < 2 ^ 63 := by
    unfold Normalized.dividend at hlt
    omega
  omega

/-- R160, R161: Algorithm D gives the floor quotient and remainder. -/
theorem algorithmD_eq {a b : Value} (hb : hi b ≠ 0) : algorithmD a b = (a / b, a % b) := by
  have hok := normalize_ok (a := a) hb
  obtain ⟨h1, h2⟩ := addBack_eq hok
  have hv := toNat_normalized_divisor (a := a) hb
  have hU := normalized_dividend (a := a) hb
  have hp := Nat.two_pow_pos (clz64 (hi b))
  rw [hU, hv, Nat.mul_mod_mul_right] at h2
  have hq := toNat_estimatedDigit hok
  rw [hU, hv, Nat.mul_div_mul_right _ _ hp] at hq
  apply quotRem_ext
  · rw [h1, toNat_zextLimb, hq]
  · have hlt : a.toNat % b.toNat * 2 ^ clz64 (hi b) < 2 ^ 128 := by
      have hbp : 0 < b.toNat := by
        rw [toNat_eq_limbs b]
        have : 0 < (hi b).toNat := by
          apply Nat.pos_of_ne_zero; intro h0; apply hb; apply BitVec.eq_of_toNat_eq; simpa using h0
        omega
      calc _ < b.toNat * 2 ^ clz64 (hi b) := Nat.mul_lt_mul_of_pos_right (Nat.mod_lt _ hbp) hp
        _ = (normalize a b).v.toNat := hv.symm
        _ < 2 ^ 128 := BitVec.isLt _
    change (shrLimbs _ (clz64 (hi b))).toNat = _
    rw [shrLimbs_of_nat, BitVec.toNat_ushiftRight, BitVec.toNat_setWidth, h2, Nat.mod_eq_of_lt hlt,
      Nat.shiftRight_eq_div_pow, Nat.mul_div_cancel _ hp]

/-! ## Dispatch (R150, R151) -/

theorem kdivrem_zero (a : Value) : kdivrem a 0 = none := by simp [kdivrem]

/-- R150: `kdivrem(a, b) = (a div b, a mod b)`, on every path. -/
theorem kdivrem_eq (a : Value) {b : Value} (hb : b ≠ 0) : kdivrem a b = some (a / b, a % b) := by
  simp only [kdivrem, hb, if_false, ltuLimbs_eq, decide_eq_true_eq]
  by_cases h1 : a < b
  · simp only [h1, if_true]
    rw [← quotRem_of_lt h1]
  simp only [h1, if_false]
  by_cases h2 : isPow2 b = true
  · simp only [h2, if_true, pow2Division_eq h2]
  rw [if_neg h2]
  cases hst : stagesOf b with
  | some ds => simp only [chained_eq hst]
  | none =>
    dsimp only
    split_ifs with h3 h4
    · rw [singleLimb_eq h3.1 h3.2]
    · rw [twoByOne_eq hb h4]
    · rw [algorithmD_eq h4]

end Sys2Proof.Machine
end

