-- ==== Sys2Proof/Laws/State.lean ====
section
/-!
SUPPORT. One lemma per field per update of State, so that no later proof unfolds a record update.
-/

namespace Sys2Proof.Machine

section Port

variable (h : Nat) (todo : List Access) (got : List Limb) (s : State)

@[simp] theorem setPort_a : (setPort h todo got s).a = s.a := rfl
@[simp] theorem setPort_b : (setPort h todo got s).b = s.b := rfl
@[simp] theorem setPort_y : (setPort h todo got s).y = s.y := rfl
@[simp] theorem setPort_z : (setPort h todo got s).z = s.z := rfl
@[simp] theorem setPort_status : (setPort h todo got s).status = s.status := rfl
@[simp] theorem setPort_hosts :
    (setPort h todo got s).hosts = s.hosts.set h { todo := todo, got := got } := rfl
@[simp] theorem setPort_events : (setPort h todo got s).events = s.events := rfl
@[simp] theorem setPort_draws : (setPort h todo got s).draws = s.draws := rfl

end Port

section Reset

variable (s : State)

@[simp] theorem platformReset_a : (platformReset s).a = 0 := rfl
@[simp] theorem platformReset_b : (platformReset s).b = 0 := rfl
@[simp] theorem platformReset_y : (platformReset s).y = 0 := rfl
@[simp] theorem platformReset_z : (platformReset s).z = 0 := rfl
@[simp] theorem platformReset_status : (platformReset s).status = Status.clear := rfl
@[simp] theorem platformReset_hosts : (platformReset s).hosts = s.hosts := rfl
@[simp] theorem platformReset_events : (platformReset s).events = s.events := rfl
@[simp] theorem platformReset_draws : (platformReset s).draws = s.draws := rfl

@[simp] theorem losePower_hosts : (losePower s).hosts = s.hosts := rfl
@[simp] theorem losePower_events : (losePower s).events = s.events := rfl
@[simp] theorem losePower_draws : (losePower s).draws = s.draws + 1 := rfl

end Reset

section Write

variable (r : WindowReg) (v : Limb) (s : State)

@[simp] theorem writeReg_y : (writeReg r v s).y = s.y := by cases r <;> rfl
@[simp] theorem writeReg_z : (writeReg r v s).z = s.z := by cases r <;> rfl
@[simp] theorem writeReg_status : (writeReg r v s).status = s.status := by cases r <;> rfl
@[simp] theorem writeReg_hosts : (writeReg r v s).hosts = s.hosts := by cases r <;> rfl
@[simp] theorem writeReg_events : (writeReg r v s).events = s.events := by cases r <;> rfl
@[simp] theorem writeReg_draws : (writeReg r v s).draws = s.draws := by cases r <;> rfl

end Write

/-! ## The three values of `STATUS` -/

@[simp] theorem Status.clear_dz : Status.clear.dz = false := rfl
@[simp] theorem Status.clear_ill : Status.clear.ill = false := rfl
@[simp] theorem Status.divByZero_dz : Status.divByZero.dz = true := rfl
@[simp] theorem Status.divByZero_ill : Status.divByZero.ill = false := rfl
@[simp] theorem Status.illegal_dz : Status.illegal.dz = false := rfl
@[simp] theorem Status.illegal_ill : Status.illegal.ill = true := rfl

@[simp] theorem statusWord_clear : statusWord Status.clear = 0#64 := by decide
@[simp] theorem statusWord_divByZero : statusWord Status.divByZero = 1#64 := by decide
@[simp] theorem statusWord_illegal : statusWord Status.illegal = 2#64 := by decide

end Sys2Proof.Machine
end

