-- ==== Sys2Proof/Laws/Exec.lean ====
section
/-!
SUPPORT. What a command can do, said once: every command answers a next state, leaves the outside alone, and writes
the registers its rule lists and no other (R71).
-/

namespace Sys2Proof.Machine

/-- What one command does to the state: all the ways it can end, with what each leaves unchanged. -/
inductive Effect (i : Instr) (s : State) : State → Prop where
  /-- R23, R71 -/
  | result (v : Value) (h : writesOnlyY i = true) : Effect i s { s with y := v, status := Status.clear }
  /-- R135, R150 -/
  | quotient (q r : Value) (h : i = .divrem ∨ i = .kdivrem) (hb : s.b ≠ 0) :
      Effect i s { s with y := q, z := r, status := Status.clear }
  /-- R192 -/
  | divByZero (h : i = .divrem ∨ i = .kdivrem) (hb : s.b = 0) : Effect i s { s with status := Status.divByZero }
  /-- R181, R183 -/
  | moveA (v : Value) (h : i = .movya ∧ v = s.y ∨ i = .movza ∧ v = s.z) :
      Effect i s { s with a := v, status := Status.clear }
  /-- R182, R184 -/
  | moveB (v : Value) (h : i = .movyb ∧ v = s.y ∨ i = .movzb ∧ v = s.z) :
      Effect i s { s with b := v, status := Status.clear }
  /-- R180 -/
  | nothing (h : i = .nop) : Effect i s { s with status := Status.clear }

/-- The end of a division by either engine. -/
theorem finishDivision_zero (s : State) : finishDivision none s = .next { s with status := Status.divByZero } := rfl

theorem finishDivision_some (q r : Value) (s : State) :
    finishDivision (some (q, r)) s = .next { s with y := q, z := r, status := Status.clear } := rfl

/-- Every command completes, with one of the effects above. -/
theorem exec_effect (i : Instr) (s : State) : ∃ t, exec i s = .next t ∧ Effect i s t := by
  cases i
  case nop => exact ⟨_, rfl, .nothing rfl⟩
  case movya => exact ⟨_, rfl, .moveA _ (.inl ⟨rfl, rfl⟩)⟩
  case movza => exact ⟨_, rfl, .moveA _ (.inr ⟨rfl, rfl⟩)⟩
  case movyb => exact ⟨_, rfl, .moveB _ (.inl ⟨rfl, rfl⟩)⟩
  case movzb => exact ⟨_, rfl, .moveB _ (.inr ⟨rfl, rfl⟩)⟩
  case divrem =>
    simp only [exec, execDivrem]
    by_cases hb : s.b = 0
    · rw [hb, divrem_zero]; exact ⟨_, rfl, .divByZero (.inl rfl) hb⟩
    · rw [divrem_eq _ hb]; exact ⟨_, rfl, .quotient _ _ (.inl rfl) hb⟩
  case kdivrem =>
    simp only [exec, execKdivrem]
    by_cases hb : s.b = 0
    · rw [hb, kdivrem_zero]; exact ⟨_, rfl, .divByZero (.inr rfl) hb⟩
    · rw [kdivrem_eq _ hb]; exact ⟨_, rfl, .quotient _ _ (.inr rfl) hb⟩
  all_goals exact ⟨_, rfl, .result _ rfl⟩

/-- A command leaves what the hosts do, what they have read and what is scheduled alone. -/
theorem Effect.outside {i : Instr} {s t : State} (h : Effect i s t) : sameOutside s t := by
  cases h <;> exact ⟨rfl, rfl, rfl⟩

/-- R71, R194: an accepted command never leaves `ILL`, and `DZ` only after a division by zero. -/
theorem Effect.status {i : Instr} {s t : State} (h : Effect i s t) :
    t.status.ill = false ∧ (t.status.dz = true → (i = .divrem ∨ i = .kdivrem) ∧ s.b = 0) := by
  cases h with
  | divByZero h hb => exact ⟨rfl, fun _ => ⟨h, hb⟩⟩
  | _ => exact ⟨rfl, fun h => by simp at h⟩

/-- A write to `CMD` completes, whatever the word (R190), and leaves the outside alone. -/
theorem issueCommand_next (w : CmdWord) (s : State) :
    ∃ t, issueCommand w s = .next t ∧ sameOutside s t ∧ statusExclusive t := by
  unfold issueCommand
  split
  · rename_i i _
    obtain ⟨t, ht, he⟩ := exec_effect i s
    exact ⟨t, ht, he.outside, by simp [statusExclusive, he.status.1]⟩
  · exact ⟨_, rfl, ⟨rfl, rfl, rfl⟩, by simp [statusExclusive]⟩

/-- A write to the window completes, and leaves the outside alone. -/
theorem writeWindow_next (off : Offset) (v : Limb) (s : State) :
    ∃ t, writeWindow off v s = .next t ∧ sameOutside s t ∧
      (statusExclusive s → statusExclusive t) := by
  unfold writeWindow
  split
  · obtain ⟨t, ht, ho, hx⟩ := issueCommand_next v s
    exact ⟨t, ht, ho, fun _ => hx⟩
  · exact ⟨_, rfl, by simp [sameOutside], by simp [statusExclusive]⟩
  · exact ⟨_, rfl, ⟨rfl, rfl, rfl⟩, id⟩

/-! ## The same commands with the same registers -/

/-- A command reads and writes the CORE's registers only: the outside has no part in its result. -/
theorem exec_core {s s' t t' : State} {i : Instr} (h : sameCore s s') (ht : exec i s = .next t)
    (ht' : exec i s' = .next t') : sameCore t t' := by
  obtain ⟨a, b, y, z, st, hosts, events, draws⟩ := s
  obtain ⟨a', b', y', z', st', hosts', events', draws'⟩ := s'
  obtain ⟨rfl, rfl, rfl, rfl, rfl⟩ : a = a' ∧ b = b' ∧ y = y' ∧ z = z' ∧ st = st' := h
  cases i
  case divrem =>
    simp only [exec, execDivrem] at ht ht'
    cases hd : divrem a b <;> simp only [hd] at ht ht' <;> cases ht <;> cases ht' <;> simp [sameCore]
  case kdivrem =>
    simp only [exec, execKdivrem] at ht ht'
    cases hd : kdivrem a b <;> simp only [hd] at ht ht' <;> cases ht <;> cases ht' <;> simp [sameCore]
  all_goals cases ht; cases ht'; simp [sameCore]

end Sys2Proof.Machine
end

