-- ==== Sys2Proof/Laws/Access.lean ====
section
/-!
SUPPORT. What a step can do, said once: the cases of an event, and of a turn.
-/

namespace Sys2Proof.Machine

/-- All the ways a turn of host `h` can end. -/
inductive TurnEffect (h : Nat) (s : State) : State → Prop where
  /-- No such host, or nothing left to do. -/
  | idle : TurnEffect h s s
  /-- R46, R47: an admitted read. -/
  | read (off : Offset) (width : Nat) (more : List Access) (got : List Limb)
      (hp : s.hosts[h]? = some { todo := .read off width :: more, got := got })
      (ha : admitted (.read off width) = true) :
      TurnEffect h s (setPort h more (got ++ [readWindow off s]) s)
  /-- An admitted write. -/
  | write (off : Offset) (width : Nat) (v : Limb) (more : List Access) (got : List Limb)
      (hp : s.hosts[h]? = some { todo := .write off width v :: more, got := got })
      (ha : admitted (.write off width v) = true) (t : State)
      (ht : writeWindow off v (setPort h more got s) = .next t) : TurnEffect h s t

/-- A turn that answers a next state has one of the effects above. -/
theorem takeTurn_cases {h : Nat} {s t : State} (ht : takeTurn h s = .next t) : TurnEffect h s t := by
  unfold takeTurn at ht
  split at ht
  · cases ht; exact .idle
  · cases ht; exact .idle
  · rename_i acc more got hp
    unfold performAccess at ht
    split at ht
    · rename_i ha
      cases acc with
      | read off width => cases ht; exact .read off width more got hp ha
      | write off width v => exact .write off width v more got hp ha t ht
    · cases ht

/-- A turn is refused only for an access that is not admitted (R42). -/
theorem takeTurn_next {h : Nat} {s : State}
    (hadm : ∀ p, s.hosts[h]? = some p → ∀ acc ∈ p.todo, admitted acc = true) : ∃ t, takeTurn h s = .next t := by
  unfold takeTurn
  split
  · exact ⟨_, rfl⟩
  · exact ⟨_, rfl⟩
  · rename_i acc more got hp
    have ha : admitted acc = true := hadm _ hp acc (by simp)
    simp only [performAccess, ha, if_true]
    cases acc with
    | read off width => exact ⟨_, rfl⟩
    | write off width v =>
      obtain ⟨t, ht, -⟩ := writeWindow_next off v (setPort h more got s)
      exact ⟨t, ht⟩

/-- What a turn does to the outside: only the host whose turn it is moves on (R49), and nothing is rescheduled. -/
theorem TurnEffect.outside {h : Nat} {s t : State} (e : TurnEffect h s t) :
    t.events = s.events ∧ t.draws = s.draws ∧ (∀ k, k ≠ h → t.hosts[k]? = s.hosts[k]?) ∧
      t.hosts.length = s.hosts.length := by
  cases e with
  | idle => exact ⟨rfl, rfl, fun _ _ => rfl, rfl⟩
  | read off width more got hp ha =>
    refine ⟨rfl, rfl, fun k hk => ?_, by simp⟩
    simp [Ne.symm hk]
  | write off width v more got hp ha t ht =>
    obtain ⟨u, hu, ⟨h1, h2, h3⟩, -⟩ := writeWindow_next off v (setPort h more got s)
    rw [ht] at hu
    cases hu
    refine ⟨h2.symm, h3.symm, fun k hk => ?_, by rw [← h1]; simp⟩
    rw [← h1]
    simp [Ne.symm hk]

/-- All the ways a step can end. -/
theorem step_cases {s t : State} (ht : step s = .next t) :
    (s.events = [] ∧ t = s) ∨
    (∃ h rest, s.events = .turn h :: rest ∧ TurnEffect h { s with events := rest } t) ∨
    (∃ rest, s.events = .resetInput :: rest ∧ t = platformReset { s with events := rest }) ∨
    (∃ rest, s.events = .powerLoss :: rest ∧ t = losePower { s with events := rest }) := by
  unfold step takeEvent at ht
  split at ht
  · rename_i he; cases ht; exact .inl ⟨he, rfl⟩
  · rename_i h rest he; exact .inr (.inl ⟨h, rest, he, takeTurn_cases ht⟩)
  · rename_i rest he; cases ht; exact .inr (.inr (.inl ⟨rest, he, rfl⟩))
  · rename_i rest he; cases ht; exact .inr (.inr (.inr ⟨rest, he, rfl⟩))

/-- What an accepted or ignored write to anything but `CMD` does to the CORE (R32). -/
theorem writeWindow_of_ne_cmd {off : Offset} (h : off ≠ regOffset .cmd) (v : Limb) (s : State) :
    ∃ t, writeWindow off v s = .next t ∧ t.y = s.y ∧ t.z = s.z ∧ t.status = s.status := by
  unfold writeWindow
  split
  · rename_i hr
    exfalso; apply h
    have key : ∀ off : Offset, regAt off = some .cmd → off = regOffset .cmd := by decide
    exact key off hr
  · exact ⟨_, rfl, by simp, by simp, by simp⟩
  · exact ⟨_, rfl, rfl, rfl, rfl⟩

/-- R31: the register map read both ways. -/
theorem regAt_regOffset (r : WindowReg) : regAt (regOffset r) = some r := by
  cases r <;> rfl

theorem regAt_eq_some {off : Offset} {r : WindowReg} : regAt off = some r ↔ off = regOffset r := by
  have key : ∀ off : Offset, ∀ r ∈ regAt off, off = regOffset r := by decide
  constructor
  · intro h; exact key off r h
  · rintro rfl; exact regAt_regOffset r

end Sys2Proof.Machine
end

