-- ==== Sys2Proof/Laws/Decode.lean ====
section
/-!
SUPPORT. Laws of the encoding: the fields of a word laid out as R61 says, and a word as the layout of its fields.
-/

namespace Sys2Proof

/-- R61: the word with these two fields and zeros in the reserved ones. -/
def wordOf (imm : BitVec 8) (op : BitVec 6) : CmdWord := 0#32 ++ 0#16 ++ imm ++ 0#2 ++ op

theorem encode_eq_wordOf (i : Instr) : encode i = wordOf (immOf i) (opcode i) := rfl

theorem getLsbD_wordOf (imm : BitVec 8) (op : BitVec 6) (j : Nat) :
    (wordOf imm op).getLsbD j =
      if j < 6 then op.getLsbD j else if j < 8 then false else if j < 16 then imm.getLsbD (j - 8) else false := by
  unfold wordOf
  simp only [BitVec.getLsbD_append, BitVec.getLsbD_zero]
  split_ifs <;> first | rfl | omega

@[simp] theorem opField_wordOf (imm : BitVec 8) (op : BitVec 6) : opField (wordOf imm op) = op := by
  apply BitVec.eq_of_getLsbD_eq
  intro j hj
  simp [opField, getLsbD_wordOf, hj]

@[simp] theorem rsv0Field_wordOf (imm : BitVec 8) (op : BitVec 6) : rsv0Field (wordOf imm op) = 0#2 := by
  apply BitVec.eq_of_getLsbD_eq
  intro j hj
  have h1 : ¬ 6 + j < 6 := by omega
  have h2 : 6 + j < 8 := by omega
  simp [rsv0Field, getLsbD_wordOf, h2]

@[simp] theorem immField_wordOf (imm : BitVec 8) (op : BitVec 6) : immField (wordOf imm op) = imm := by
  apply BitVec.eq_of_getLsbD_eq
  intro j hj
  have h1 : ¬ 8 + j < 6 := by omega
  have h2 : 8 + j < 16 := by omega
  simp [immField, getLsbD_wordOf, hj, h1, h2]

@[simp] theorem rsv1Field_wordOf (imm : BitVec 8) (op : BitVec 6) : rsv1Field (wordOf imm op) = 0#16 := by
  apply BitVec.eq_of_getLsbD_eq
  intro j hj
  have h1 : ¬ 16 + j < 6 := by omega
  have h2 : ¬ 16 + j < 8 := by omega
  simp [rsv1Field, getLsbD_wordOf, h1, h2]

@[simp] theorem rsv2Field_wordOf (imm : BitVec 8) (op : BitVec 6) : rsv2Field (wordOf imm op) = 0#32 := by
  apply BitVec.eq_of_getLsbD_eq
  intro j hj
  have h1 : ¬ 32 + j < 6 := by omega
  have h2 : ¬ 32 + j < 8 := by omega
  have h3 : ¬ 32 + j < 16 := by omega
  simp [rsv2Field, getLsbD_wordOf, h1, h2, h3]

theorem decode_wordOf (imm : BitVec 8) (op : BitVec 6) : decode (wordOf imm op) = decodeOp op imm := by
  simp [decode]

/-- A word whose reserved fields are zero is the layout of its other two. -/
theorem eq_wordOf {w : CmdWord} (h2 : rsv2Field w = 0#32) (h1 : rsv1Field w = 0#16) (h0 : rsv0Field w = 0#2) :
    w = wordOf (immField w) (opField w) := by
  apply BitVec.eq_of_getLsbD_eq
  intro j hj
  rw [getLsbD_wordOf]
  split_ifs with c1 c2 c3
  · simp [opField, c1]
  · have := congrArg (fun v => v.getLsbD (j - 6)) h0
    simp only [rsv0Field, BitVec.getLsbD_extractLsb', BitVec.getLsbD_zero] at this
    simpa [show j - 6 < 2 by omega, show 6 + (j - 6) = j by omega] using this
  · simp [immField, show j - 8 < 8 by omega, show 8 + (j - 8) = j by omega]
  · by_cases c4 : j < 32
    · have := congrArg (fun v => v.getLsbD (j - 16)) h1
      simp only [rsv1Field, BitVec.getLsbD_extractLsb', BitVec.getLsbD_zero] at this
      simpa [show j - 16 < 16 by omega, show 16 + (j - 16) = j by omega] using this
    · have := congrArg (fun v => v.getLsbD (j - 32)) h2
      simp only [rsv2Field, BitVec.getLsbD_extractLsb', BitVec.getLsbD_zero] at this
      simpa [show j - 32 < 32 by omega, show 32 + (j - 32) = j by omega] using this

/-- What acceptance says of a word: its reserved fields are zero and its opcode and immediate decode. -/
theorem decode_ok_iff {w : CmdWord} {i : Instr} :
    decode w = .ok i ↔ w = wordOf (immField w) (opField w) ∧ decodeOp (opField w) (immField w) = .ok i := by
  constructor
  · intro h
    unfold decode at h
    split_ifs at h with h2 h1 h0
    exact ⟨eq_wordOf (not_not.1 h2) (not_not.1 h1) (not_not.1 h0), h⟩
  · rintro ⟨hw, h⟩
    rw [hw, decode_wordOf]
    simpa using h

/-- R63: the subfields of `EXT`'s immediate, and the immediate as their layout. -/
theorem decodeExt_immOf (signed : Bool) (width : ExtWidth) :
    decodeExt (immOf (.ext signed width)) = .ok (.ext signed width) := by
  cases signed <;> cases width <;> rfl

theorem decodeModm_of_legal {m : BitVec 8} (h : modulusLegal m = true) : decodeModm m = .ok (.modm m) := by
  simp [decodeModm, h]

theorem plain_ok {i j : Instr} {imm : BitVec 8} (h : plain i imm = .ok j) : imm = 0#8 ∧ i = j := by
  unfold plain at h
  split_ifs at h with h0
  exact ⟨h0, by injection h⟩

theorem decodeExt_ok {imm : BitVec 8} {j : Instr} (h : decodeExt imm = .ok j) :
    ∃ signed width, j = .ext signed width ∧ immOf j = imm := by
  have key : ∀ imm : BitVec 8, extReservedField imm = 0#5 →
      immOf (.ext (extSignField imm) (extWidthField imm)) = imm := by decide
  unfold decodeExt at h
  split_ifs at h with h0
  injection h with h
  subst h
  exact ⟨_, _, rfl, key imm h0⟩

theorem decodeModm_ok {imm : BitVec 8} {j : Instr} (h : decodeModm imm = .ok j) :
    j = .modm imm ∧ modulusLegal imm = true := by
  unfold decodeModm at h
  split_ifs at h with h0
  injection h with h
  exact ⟨h.symm, h0⟩

/-- R64, on numbers. -/
theorem modulusLegal_iff {m : BitVec 8} : modulusLegal m = true ↔ 2 ≤ m.toNat ∧ m.toNat ≤ 63 := by
  rw [modulusLegal, Bool.and_eq_true, decide_eq_true_iff, decide_eq_true_iff]
  rfl

/-- A check that lets one command through lets it through exactly when the check holds. -/
theorem ite_ok_iff {c : Prop} [Decidable c] (i : Instr) (r : Reject) :
    (∃ j, (if c then .ok i else .error r : Except Reject Instr) = .ok j) ↔ c := by
  split_ifs with h
  · exact ⟨fun _ => h, fun _ => ⟨i, rfl⟩⟩
  · refine ⟨?_, fun h' => absurd h' h⟩
    rintro ⟨j, hj⟩
    cases hj

/-- R66: every assigned opcode is some command's. -/
theorem opAssigned_cases : ∀ op : BitVec 6, opAssigned op = true →
    ∃ i ∈ [Instr.nop, .add, .sub, .inc, .dec, .and, .or, .xor, .not, .shl, .shr, .eq, .ne, .ltu, .leu, .gtu, .geu,
      .clz, .ctz, .efflen, .ispow2, .ext false .w8, .mul, .mulw64, .fmulh64, .divrem, .kdivrem, .modm 2, .movya,
      .movyb, .movza, .movzb], op = opcode i := by
  decide

/-- R65, R67: which opcode and immediate pairs decode. -/
theorem decodeOp_isOk_iff (op : BitVec 6) (imm : BitVec 8) : (∃ i, decodeOp op imm = .ok i) ↔
    opAssigned op = true ∧
      (if op = 0x15#6 then extReservedField imm = 0#5
        else if op = 0x22#6 then modulusLegal imm = true else imm = 0#8) := by
  unfold decodeOp
  split
  case h_33 =>
    constructor
    · rintro ⟨i, h⟩; cases h
    · rintro ⟨h, -⟩
      obtain ⟨i, hi, hop⟩ := opAssigned_cases op h
      simp only [List.mem_cons, List.not_mem_nil, or_false] at hi
      rcases hi with rfl | rfl | rfl | rfl | rfl | rfl | rfl | rfl | rfl | rfl | rfl | rfl | rfl | rfl | rfl |
        rfl | rfl | rfl | rfl | rfl | rfl | rfl | rfl | rfl | rfl | rfl | rfl | rfl | rfl | rfl | rfl | rfl <;>
        exact absurd hop (by assumption)
  all_goals exact (ite_ok_iff _ _).trans (by simp [opAssigned])

end Sys2Proof
end

