-- ==== Sys2Proof/Laws/Modm.lean ====
section
/-!
SUPPORT. Laws of the reduction unit (R170 to R173): the remainder fits in the low limb, and each strategy class gives it.
-/

namespace Sys2Proof.Machine

theorem toNat_modReduce (a : Value) {m : Nat} (h1 : 0 < m) (h2 : m < 2 ^ 64) :
    (modReduce a m).toNat = a.toNat % m := by
  have := Nat.mod_lt a.toNat h1
  rw [modReduce, toNat_zextLimb, BitVec.toNat_ofNat, Nat.mod_eq_of_lt (by omega)]

theorem hi_modReduce (a : Value) (m : Nat) : hi (modReduce a m) = 0 := by
  simp [modReduce, zextLimb]

/-- R172: the congruence, for every modulus. -/
theorem modCongruence_eq (a : Value) (m : Nat) : modCongruence a m = a.toNat % m := by
  unfold modCongruence
  conv_rhs => rw [toNat_eq_limbs a, Nat.add_mod, Nat.mul_mod]
  rw [Nat.add_mod, Nat.mod_mod]

/-- R171: the bit mask, for a power of two. -/
theorem modMask_eq (a : Value) {k : Nat} (hk : k < 64) : modMask a (2 ^ k) = a.toNat % 2 ^ k := by
  have hlt : 2 ^ k < 2 ^ 64 := Nat.pow_lt_pow_right (by omega) hk
  have hdvd : 2 ^ k ∣ 2 ^ 64 := pow_dvd_pow 2 (by omega)
  rw [modMask, BitVec.toNat_and, BitVec.toNat_ofNat, Nat.mod_eq_of_lt (a := 2 ^ k - 1) (by omega),
    Nat.and_two_pow_sub_one_eq_mod, toNat_lo, Nat.mod_mod_of_dvd _ hdvd]

/-- R170, R171: the fallback, "full `divrem`". -/
theorem modDivrem_eq (a : Value) {m : Nat} (h1 : 0 < m) (h2 : m < 2 ^ 128) : modDivrem a m = a.toNat % m := by
  have hm : (BitVec.ofNat 128 m).toNat = m := by rw [BitVec.toNat_ofNat, Nat.mod_eq_of_lt h2]
  have hne : BitVec.ofNat 128 m ≠ 0 := by
    intro h; have := congrArg BitVec.toNat h; rw [hm] at this; simp at this; omega
  rw [modDivrem, divrem_eq a hne]
  simp only [BitVec.toNat_umod, hm]

end Sys2Proof.Machine
end

