-- ==== Sys2Proof/Laws/PerInstr.lean ====
section
/-!
SUPPORT. The statements made per instruction (LAWS.json): a well-formed command decodes from its encoding.
-/

namespace Sys2Proof.Laws.EncodingRoundTrip

/-- R61 to R66: the decoder reads a well-formed command back from its word. -/
def Statement (i : Instr) : Prop := i.wellFormed = true → decode (encode i) = .ok i

theorem nop : Statement .nop := fun _ => rfl
theorem add : Statement .add := fun _ => rfl
theorem sub : Statement .sub := fun _ => rfl
theorem inc : Statement .inc := fun _ => rfl
theorem dec : Statement .dec := fun _ => rfl
theorem and : Statement .and := fun _ => rfl
theorem or : Statement .or := fun _ => rfl
theorem xor : Statement .xor := fun _ => rfl
theorem not : Statement .not := fun _ => rfl
theorem shl : Statement .shl := fun _ => rfl
theorem shr : Statement .shr := fun _ => rfl
theorem eq : Statement .eq := fun _ => rfl
theorem ne : Statement .ne := fun _ => rfl
theorem ltu : Statement .ltu := fun _ => rfl
theorem leu : Statement .leu := fun _ => rfl
theorem gtu : Statement .gtu := fun _ => rfl
theorem geu : Statement .geu := fun _ => rfl
theorem clz : Statement .clz := fun _ => rfl
theorem ctz : Statement .ctz := fun _ => rfl
theorem efflen : Statement .efflen := fun _ => rfl
theorem ispow2 : Statement .ispow2 := fun _ => rfl

theorem ext (signed : Bool) (width : ExtWidth) : Statement (.ext signed width) := by
  intro _
  rw [encode_eq_wordOf, decode_wordOf]
  exact decodeExt_immOf signed width

theorem mul : Statement .mul := fun _ => rfl
theorem mulw64 : Statement .mulw64 := fun _ => rfl
theorem fmulh64 : Statement .fmulh64 := fun _ => rfl
theorem divrem : Statement .divrem := fun _ => rfl
theorem kdivrem : Statement .kdivrem := fun _ => rfl

theorem modm (m : BitVec 8) : Statement (.modm m) := by
  intro h
  rw [encode_eq_wordOf, decode_wordOf]
  exact decodeModm_of_legal h

theorem movya : Statement .movya := fun _ => rfl
theorem movyb : Statement .movyb := fun _ => rfl
theorem movza : Statement .movza := fun _ => rfl
theorem movzb : Statement .movzb := fun _ => rfl

end Sys2Proof.Laws.EncodingRoundTrip
end

