-- ==== Sys2Proof/Laws/Window.lean ====
section
/-!
SUPPORT. Laws of the bytes of a register (R44, R45): a limb is the eight bytes the host bus carries.
-/

namespace Sys2Proof.Machine

theorem getLsbD_regByte_little (r : Limb) (k i : Nat) :
    (regByte .little r k).getLsbD i = (decide (i < 8) && r.getLsbD (8 * k + i)) := by
  simp [regByte]

theorem getLsbD_regByte_big (r : Limb) (k i : Nat) :
    (regByte .big r k).getLsbD i = (decide (i < 8) && r.getLsbD (56 - 8 * k + i)) := by
  simp [regByte]

/-- R44: the two byte orders are each other's mirror. -/
theorem regByte_big_eq_little {k : Nat} (h : k < 8) (r : Limb) : regByte .big r k = regByte .little r (7 - k) := by
  simp only [regByte, show 56 - 8 * k = 8 * (7 - k) by omega]

end Sys2Proof.Machine
end

