-- ==== Sys2Proof/Tests/Slice0.lean ====
section
/-!
SUPPORT. Small tests, each a named theorem. Expected results are the spec's: the encodings of spec/30_encoding.md R61 to
R66 written out by hand, and the vectors of spec/95_test_vectors.md (the section is named beside each group). The last
part shows, for each statement with hypotheses, concrete states and operands that meet them.
-/

open Sys2Proof Sys2Proof.Machine

namespace Sys2Proof.Tests

/-! ## WellFormed (R64) -/

theorem test_wellFormed_refuses_modulus : (Instr.modm 0).wellFormed = false ∧ (Instr.modm 1).wellFormed = false ∧
    (Instr.modm 64).wellFormed = false ∧ (Instr.modm 255).wellFormed = false := by decide

theorem test_wellFormed_accepts : (Instr.modm 2).wellFormed = true ∧ (Instr.modm 63).wellFormed = true ∧
    (Instr.ext true .w64).wellFormed = true ∧ Instr.divrem.wellFormed = true := by decide

/-! ## Decoding, words written out as `IMM8`, `RSV0`, `OP` (R61, R66); every bit above is 0 -/

theorem test_decode_adder : decode 0b00000000_00_000001#64 = .ok .add ∧ decode 0b00000000_00_000010#64 = .ok .sub ∧
    decode 0b00000000_00_000011#64 = .ok .inc ∧ decode 0b00000000_00_000100#64 = .ok .dec := ⟨rfl, rfl, rfl, rfl⟩

theorem test_decode_bitwise : decode 0b00000000_00_000101#64 = .ok .and ∧ decode 0b00000000_00_000110#64 = .ok .or ∧
    decode 0b00000000_00_000111#64 = .ok .xor ∧ decode 0b00000000_00_001000#64 = .ok .not := ⟨rfl, rfl, rfl, rfl⟩

theorem test_decode_shift : decode 0b00000000_00_001001#64 = .ok .shl ∧ decode 0b00000000_00_001010#64 = .ok .shr :=
  ⟨rfl, rfl⟩

theorem test_decode_compare : decode 0b00000000_00_001011#64 = .ok .eq ∧ decode 0b00000000_00_001100#64 = .ok .ne ∧
    decode 0b00000000_00_001101#64 = .ok .ltu ∧ decode 0b00000000_00_001110#64 = .ok .leu ∧
    decode 0b00000000_00_001111#64 = .ok .gtu ∧ decode 0b00000000_00_010000#64 = .ok .geu :=
  ⟨rfl, rfl, rfl, rfl, rfl, rfl⟩

theorem test_decode_count : decode 0b00000000_00_010001#64 = .ok .clz ∧ decode 0b00000000_00_010010#64 = .ok .ctz ∧
    decode 0b00000000_00_010011#64 = .ok .efflen ∧ decode 0b00000000_00_010100#64 = .ok .ispow2 := ⟨rfl, rfl, rfl, rfl⟩

theorem test_decode_ext : decode 0b00000_0_00_00_010101#64 = .ok (.ext false .w8) ∧
    decode 0b00000_0_01_00_010101#64 = .ok (.ext false .w16) ∧ decode 0b00000_0_10_00_010101#64 = .ok (.ext false .w32) ∧
    decode 0b00000_0_11_00_010101#64 = .ok (.ext false .w64) ∧ decode 0b00000_1_00_00_010101#64 = .ok (.ext true .w8) ∧
    decode 0b00000_1_01_00_010101#64 = .ok (.ext true .w16) ∧ decode 0b00000_1_10_00_010101#64 = .ok (.ext true .w32) ∧
    decode 0b00000_1_11_00_010101#64 = .ok (.ext true .w64) := ⟨rfl, rfl, rfl, rfl, rfl, rfl, rfl, rfl⟩

theorem test_decode_multiply : decode 0b00000000_00_011000#64 = .ok .mul ∧
    decode 0b00000000_00_011001#64 = .ok .mulw64 ∧ decode 0b00000000_00_011010#64 = .ok .fmulh64 := ⟨rfl, rfl, rfl⟩

theorem test_decode_divide : decode 0b00000000_00_100000#64 = .ok .divrem ∧
    decode 0b00000000_00_100001#64 = .ok .kdivrem := ⟨rfl, rfl⟩

theorem test_decode_modm : decode 0b00000010_00_100010#64 = .ok (.modm 2) ∧
    decode 0b00000111_00_100010#64 = .ok (.modm 7) ∧ decode 0b00111111_00_100010#64 = .ok (.modm 63) := ⟨rfl, rfl, rfl⟩

theorem test_decode_control : decode 0#64 = .ok .nop ∧ decode 0b00000000_00_110000#64 = .ok .movya ∧
    decode 0b00000000_00_110001#64 = .ok .movyb ∧ decode 0b00000000_00_110010#64 = .ok .movza ∧
    decode 0b00000000_00_110011#64 = .ok .movzb := ⟨rfl, rfl, rfl, rfl, rfl⟩

/-- R66: the reserved values of `OP`. -/
theorem test_decode_reservedOp :
    ∀ op ∈ [0x16, 0x17, 0x1B, 0x1C, 0x1D, 0x1E, 0x1F, 0x23, 0x2F, 0x34, 0x3F], decode (BitVec.ofNat 64 op) = .error .reservedOp := by
  intro op h
  simp only [List.mem_cons, List.not_mem_nil, or_false] at h
  rcases h with rfl | rfl | rfl | rfl | rfl | rfl | rfl | rfl | rfl | rfl | rfl <;> rfl

/-- L2.6, L2.10, L2.11: illegal words. -/
theorem test_decode_illegal : decode 0x815#64 = .error .extReserved ∧ decode 0x022#64 = .error .modulusRange ∧
    decode 0x122#64 = .error .modulusRange ∧ decode 0x4022#64 = .error .modulusRange ∧
    decode 0x120#64 = .error .immNotZero ∧ decode 0x40#64 = .error .rsv0 ∧ decode 0x10001#64 = .error .rsv1 ∧
    decode 0x8000000000000000#64 = .error .rsv2 := ⟨rfl, rfl, rfl, rfl, rfl, rfl, rfl, rfl⟩

theorem test_decodeTableWord : decodeTableWord 32 0x3F22 = some (.modm 63) ∧ decodeTableWord 64 0x16 = none :=
  ⟨rfl, rfl⟩

/-! ## One step -/

/-- `2^128 - 1`, the spec's `MAX`. -/
def max : Value := 0xFFFFFFFFFFFFFFFFFFFFFFFFFFFFFFFF#128

/-- The operand of L2.3. -/
def mixed : Value := 0x0123456789ABCDEFFEDCBA9876543210#128

/-- Operands `a` and `b`, with `Y = 14` and `Z = 2` left from before and both error bits clear. -/
def operands (a b : Value) : State := { State.reset with a := a, b := b, y := 14, z := 2 }

/-- The state after an outcome, if it is a next state. -/
def after (o : Host.Outcome State Fault Refusal) : Option State :=
  match o with
  | .next t => some t
  | .fault _ => none
  | .refused _ => none

/-- `Y` after a command on `a` and `b`. -/
def yOf (i : Instr) (a b : Value) : Option Value := (after (exec i (operands a b))).map State.y

/-- `Y` and `Z` after a command on `a` and `b`. -/
def yzOf (i : Instr) (a b : Value) : Option (Value × Value) :=
  (after (exec i (operands a b))).map (fun t => (t.y, t.z))

-- L2.1
theorem test_add_carry_across_limbs : yOf .add 0x0000000000000000FFFFFFFFFFFFFFFF#128 1 = some 0x00000000000000010000000000000000#128 := by decide
theorem test_add_low_limb_carry : yOf .add mixed 0x11111111111111111111111111111111#128 = some 0x123456789ABCDF010FEDCBA987654321#128 := by decide
theorem test_sub_borrow_across_limbs : yOf .sub 0x00000000000000010000000000000000#128 1 = some 0x0000000000000000FFFFFFFFFFFFFFFF#128 := by decide
theorem test_sub_wraps : yOf .sub 0 max = some 1 := by decide
theorem test_inc_wraps : yOf .inc max 5 = some 0 := by decide
theorem test_dec_borrows : yOf .dec 0x00000000000000010000000000000000#128 5 = some 0x0000000000000000FFFFFFFFFFFFFFFF#128 := by decide

-- L2.2
theorem test_and : yOf .and 0xFF00FF00FF00FF000F0F0F0F0F0F0F0F#128 0x0FF00FF00FF00FF000000000FFFFFFFF#128 = some 0x0F000F000F000F00000000000F0F0F0F#128 := by decide
theorem test_or : yOf .or 0xFF00FF00FF00FF000F0F0F0F0F0F0F0F#128 0x0FF00FF00FF00FF000000000FFFFFFFF#128 = some 0xFFF0FFF0FFF0FFF00F0F0F0FFFFFFFFF#128 := by decide
theorem test_xor : yOf .xor 0xFF00FF00FF00FF000F0F0F0F0F0F0F0F#128 0x0FF00FF00FF00FF000000000FFFFFFFF#128 = some 0xF0F0F0F0F0F0F0F00F0F0F0FF0F0F0F0#128 := by decide
theorem test_not : yOf .not 0xFF00FF00FF00FF000F0F0F0F0F0F0F0F#128 0 = some 0x00FF00FF00FF00FFF0F0F0F0F0F0F0F0#128 := by decide

-- L2.3
theorem test_shl_ignores_high_limb_of_count : yOf .shl mixed 0xFFFFFFFFFFFFFFFF0000000000000001#128 = some 0x02468ACF13579BDFFDB97530ECA86420#128 := by decide
theorem test_shl_by_65 : yOf .shl mixed 65 = some 0xFDB97530ECA864200000000000000000#128 := by decide
theorem test_shr_by_63 : yOf .shr mixed 63 = some 0x000000000000000002468ACF13579BDF#128 := by decide
theorem test_shr_negative_count : yOf .shr mixed 0x0000000000000000FFFFFFFFFFFFFFFF#128 = some mixed := by decide

-- L2.4
theorem test_eq : yOf .eq 5 5 = some 1 ∧ yOf .eq 1 2 = some 0 := by decide
theorem test_ne : yOf .ne 0x00000000000000010000000000000000#128 0x00000000000000010000000000000001#128 = some 1 ∧ yOf .ne 5 5 = some 0 := by decide
theorem test_ltu_high_limb_first : yOf .ltu 0x00000000000000010000000000000000#128 0x0000000000000000FFFFFFFFFFFFFFFF#128 = some 0 := by decide
theorem test_ltu_unsigned : yOf .ltu max 0 = some 0 := by decide
theorem test_leu : yOf .leu 5 5 = some 1 ∧ yOf .leu 2 1 = some 0 := by decide
theorem test_gtu : yOf .gtu max 0 = some 1 ∧ yOf .gtu 5 5 = some 0 := by decide
theorem test_geu : yOf .geu 0x00000000000000010000000000000000#128 0x00000000000000010000000000000001#128 = some 0 ∧ yOf .geu 5 5 = some 1 := by decide

-- L2.5
theorem test_clz : yOf .clz 0x0000000000000F0000000000000000F0#128 0 = some 52 := by decide
theorem test_clz_zero : yOf .clz 0 0 = some 128 := by decide
theorem test_ctz : yOf .ctz 0x80000000000000000000000000000000#128 0 = some 127 := by decide
theorem test_ctz_zero : yOf .ctz 0 0 = some 128 := by decide
theorem test_efflen : yOf .efflen 0x0000000000000F0000000000000000F0#128 0 = some 76 := by decide
theorem test_efflen_zero : yOf .efflen 0 0 = some 0 := by decide
theorem test_ispow2 : yOf .ispow2 0x00000000000000010000000000000000#128 0 = some 1 := by decide
theorem test_ispow2_zero : yOf .ispow2 0 0 = some 0 := by decide

-- L2.6
theorem test_ext_s8_ignores_bits_above : yOf (.ext true .w8) 0x1FF 0 = some max := by decide
theorem test_ext_u32 : yOf (.ext false .w32) 0x0000123480000000 0 = some 0x80000000 := by decide

-- L2.7
theorem test_mul_wraps : yOf .mul max max = some 1 := by decide
theorem test_mul_cross : yOf .mul mixed 16 = some 0x123456789ABCDEFFEDCBA98765432100#128 := by decide
theorem test_mulw64_low_limbs_only : yOf .mulw64 max 2 = some 0x0000000000000001FFFFFFFFFFFFFFFE#128 := by decide
theorem test_mulw64_mixed : yOf .mulw64 mixed 16 = some 0x000000000000000FEDCBA98765432100#128 := by decide
theorem test_fmulh64_max : yOf .fmulh64 max 0x0000000000000000FFFFFFFFFFFFFFFF#128 = some 0x0000000000000000FFFFFFFFFFFFFFFE#128 := by decide
theorem test_fmulh64_small : yOf .fmulh64 0x80000000000000000000000000000001#128 4 = some 2 := by decide

-- L2.8
theorem test_divrem_100_by_7 : yzOf .divrem 100 7 = some (14, 2) := by decide
theorem test_divrem_mixed : yzOf .divrem mixed 0x00000000000123456789ABCDEF012345#128 = some (0x10000000000#128, 0xFDB9759876543210#128) := by decide +kernel
theorem test_kdivrem_one_correction : yzOf .kdivrem 0xFFFFFFFFFFFFFFFF0000000000000000#128 0x0000000000000001FFFFFFFFFFFFFFFF#128 = some (0x7FFFFFFFFFFFFFFF#128, 0x00000000000000017FFFFFFFFFFFFFFF#128) := by decide
theorem test_kdivrem_two_limb_quotient : yzOf .kdivrem max 0x0000000000000000FFFFFFFFFFFFFFFF#128 = some (0x00000000000000010000000000000001#128, 0) := by decide
/-- R192: `Y` and `Z` keep their values. -/
theorem test_division_by_zero :
    (after (exec .divrem (operands 0 0))).map (fun t => (t.status, t.y, t.z)) = some ({ dz := true, ill := false }, 14, 2) ∧
    (after (exec .kdivrem (operands 5 0))).map (fun t => (t.status, t.y, t.z)) = some ({ dz := true, ill := false }, 14, 2) := by decide

-- L2.9
theorem test_chained_by_10 : chained max [2, 5] = (0x19999999999999999999999999999999#128, 5) := by decide
theorem test_chained_by_27 : chained max [3, 3, 3] = (0x097B425ED097B425ED097B425ED097B4#128, 3) := by decide
theorem test_normalize : normalize mixed 0x00000000000123456789ABCDEF012345#128 =
    { s := 47, v := 0x91A2B3C4D5E6F78091A2800000000000#128, u2 := 0x00000091A2B3C4D5#64,
      u := 0xE6F7FF6E5D4C3B2A1908000000000000#128 } := by decide
theorem test_correction_runs_once :
    trialDigit (normalize 0xFFFFFFFFFFFFFFFF0000000000000000#128 0x0000000000000001FFFFFFFFFFFFFFFF#128) = (0x8000000000000000, 0) ∧
    estimatedDigit (normalize 0xFFFFFFFFFFFFFFFF0000000000000000#128 0x0000000000000001FFFFFFFFFFFFFFFF#128) = 0x7FFFFFFFFFFFFFFF#64 := by decide

-- L2.10
theorem test_modm_63 : yzOf (.modm 63) max 0 = some (3, 2) := by decide
theorem test_modm_61 : yOf (.modm 61) 0x00000000000000010000000000000000#128 0 = some 16 := by decide
theorem test_modm_classes : [7, 2, 63, 10, 13, 61].map modClass =
    [.smallPower, .powerOfTwo, .fallback, .smallPower, .enumerated, .enumerated] := by decide

-- L2.11
theorem test_nop_clears_status :
    (after (exec .nop { operands 1 2 with status := Status.illegal })).map State.status = some Status.clear := by decide
theorem test_movya : (after (exec .movya (operands 1 3))).map (fun t => (t.a, t.b)) = some (14, 3) := by decide
theorem test_movyb : (after (exec .movyb (operands 1 3))).map (fun t => (t.a, t.b)) = some (1, 14) := by decide
theorem test_movza : (after (exec .movza (operands 1 3))).map (fun t => (t.a, t.b)) = some (2, 3) := by decide
theorem test_movzb : (after (exec .movzb (operands 1 3))).map (fun t => (t.a, t.b)) = some (1, 2) := by decide
/-- R194's example: `DIVREM` with `IMM8 = 1` and `B = 0` gives `ILL = 1`, `DZ = 0`. -/
theorem test_illegal_word_before_division :
    after (issueCommand 0x120#64 (operands 1 0)) = some { operands 1 0 with status := { dz := false, ill := true } } := by decide

-- L2.12
theorem test_write_then_read_limb :
    ((after (writeWindow 0x08 0x0123456789ABCDEF#64 (operands 5 0))).map (readWindow 0x08)) = some 0x0123456789ABCDEF#64 := by decide
theorem test_write_to_read_only_register : after (writeWindow 0x20 5 (operands 1 2)) = some (operands 1 2) ∧
    after (writeWindow 0x40 3 (operands 1 2)) = some (operands 1 2) := by decide
theorem test_bytes_of_register :
    regByte .little 0x0807060504030201#64 0 = 0x01 ∧ regByte .little 0x0807060504030201#64 7 = 0x08 ∧
    regByte .big 0x0807060504030201#64 0 = 0x08 ∧ regByte .big 0x0807060504030201#64 7 = 0x01 := by decide

/-! ## Steps -/

/-- R212: "After reset, `DIVREM` with nothing written sets `STATUS.DZ = 1`". -/
theorem test_first_command_after_reset :
    (after (step (State.reset.withFetchWord 32 0x20))).map State.status = some { dz := true, ill := false } := by decide

/-- R30: after reset a host reads 0. -/
theorem test_read_after_reset :
    (after (step (oneHost [.read 0x40 8] State.reset))).map (fun t => t.hosts.map HostPort.got) = some [[0]] := by decide

/-! ## Witnesses: the hypotheses of the statements can be met -/

theorem witness_DecodeReadsBackEncode : (Instr.modm 2).wellFormed = true ∧ (Instr.modm 63).wellFormed = true ∧
    (Instr.ext true .w64).wellFormed = true := by decide

theorem witness_AcceptedWordIsItsEncoding : decode 0x3F22#64 = .ok (.modm 63) ∧ decode 0x715#64 = .ok (.ext true .w64) :=
  ⟨rfl, rfl⟩

/-- One word for each clause: `EXT` 7 and 8, `MODM` 2, 63, 1 and 64, and `ADD` with `IMM8 = 1`. -/
theorem witness_ImmediateFieldsDecode :
    (∀ w ∈ [0x715#64, 0x815#64, 0x222#64, 0x3F22#64, 0x122#64, 0x4022#64, 0x101#64],
      rsv0Field w = 0 ∧ rsv1Field w = 0 ∧ rsv2Field w = 0) ∧
    (opField 0x715#64 = 0x15#6 ∧ (immField 0x715#64).toNat < 8) ∧
    (opField 0x815#64 = 0x15#6 ∧ 8 ≤ (immField 0x815#64).toNat) ∧
    (opField 0x222#64 = 0x22#6 ∧ 2 ≤ (immField 0x222#64).toNat ∧ (immField 0x222#64).toNat ≤ 63) ∧
    (opField 0x3F22#64 = 0x22#6 ∧ 2 ≤ (immField 0x3F22#64).toNat ∧ (immField 0x3F22#64).toNat ≤ 63) ∧
    (opField 0x122#64 = 0x22#6 ∧ ¬ (2 ≤ (immField 0x122#64).toNat ∧ (immField 0x122#64).toNat ≤ 63)) ∧
    (opField 0x4022#64 = 0x22#6 ∧ ¬ (2 ≤ (immField 0x4022#64).toNat ∧ (immField 0x4022#64).toNat ≤ 63)) ∧
    (opField 0x101#64 ≠ 0x15#6 ∧ opField 0x101#64 ≠ 0x22#6 ∧ immField 0x101#64 ≠ 0) :=
  ⟨by intro w h; simp only [List.mem_cons, List.not_mem_nil, or_false] at h; rcases h with rfl | rfl | rfl | rfl | rfl | rfl | rfl <;> decide,
    by decide, by decide, by decide, by decide, by decide, by decide, by decide⟩

/-- The shift counts 0 and 127 of `WrapLawOfLimbFamily` and `SignedReadingOfResults`. -/
theorem witness_WrapLawOfLimbFamily : (lo (operands 1 0).b).toInt = (0 : Nat) ∧ (lo (operands 1 127).b).toInt = (127 : Nat) := by decide

/-- `ClzCountsFromTheTop`, `CtzCountsFromTheBottom` and `EfflenIsBitLength` at both ends: 0, and a number with one bit. -/
theorem witness_counts : clzLimbs 0 = 128 ∧ clzLimbs 1 = 127 ∧ ctzLimbs 0 = 128 ∧ ctzLimbs 1 = 0 ∧ effLen 0 = 0 ∧ effLen 1 = 1 := by decide

theorem witness_Fmulh64IsHighWord : 1 ≤ (lo (operands max 1).b).toNat := by decide

/-- Both clauses of `DivremIsFloorDivision`, `KdivremIsFloorDivision` and `FrameOfDivisions`. -/
theorem witness_divisions : (operands 5 0).b = 0 ∧ (operands 5 7).b ≠ 0 := by decide

theorem witness_DivremResultLaw : (7 : Value) ≠ 0 ∧ (max : Value) ≠ 0 := by decide

theorem witness_LongDivisionBounds : (3 : Value) ≠ 0 ∧ ¬ (max : Value) < 3 ∧ (max : Value) ≠ 3 ∧ (3 : Value) ≠ 1 ∧
    isPow2 3 = false := by decide

/-- A quotient that is not 0, one that is, and the divisors `2^0` and `2^127`. -/
theorem witness_DivisionRoundTrip :
    ((operands 100 7).b ≠ 0 ∧ (14 : Value) = (operands 100 7).a / (operands 100 7).b ∧
      (2 : Value) = (operands 100 7).a % (operands 100 7).b ∧ (14 : Value) ≠ 0) ∧
    ((operands 5 7).b ≠ 0 ∧ (0 : Value) = (operands 5 7).a / (operands 5 7).b ∧
      (5 : Value) = (operands 5 7).a % (operands 5 7).b) ∧
    (0 < 128 ∧ (operands 5 1).b.toNat = 2 ^ 0) ∧
    (127 < 128 ∧ (operands 5 0x80000000000000000000000000000000#128).b.toNat = 2 ^ 127) := by decide

theorem witness_ChainedStagesAreExact : stagesOf 1000 = some [8, 125] ∧ (8 : Value) ≠ 0 ∧ (125 : Value) ≠ 0 := by decide

/-- One divisor for each clause: `2^127`, one limb by one limb, two limbs by one limb. -/
theorem witness_FastPathsAreExact :
    ((0x80000000000000000000000000000000#128 : Value) ≠ 0 ∧ 127 < 128 ∧
      (0x80000000000000000000000000000000#128 : Value).toNat = 2 ^ 127) ∧
    ((7 : Value) ≠ 0 ∧ hi 100 = 0 ∧ hi 7 = 0) ∧ ((7 : Value) ≠ 0 ∧ hi 7 = 0) := by decide

/-- `NormalizationLosesNoBit` and `AlgorithmDBounds`, with the shift at both ends of its range. -/
theorem witness_algorithmD : hi 0x00000000000000010000000000000001#128 ≠ 0 ∧ hi 0x8000000000000000FFFFFFFFFFFFFFFF#128 ≠ 0 ∧
    (normalize max 0x00000000000000010000000000000001#128).s = 63 ∧
    (normalize max 0x8000000000000000FFFFFFFFFFFFFFFF#128).s = 0 := by decide

theorem witness_ModmIsRemainder : (2 ≤ (2 : BitVec 8).toNat ∧ (2 : BitVec 8).toNat ≤ 63) ∧
    (2 ≤ (63 : BitVec 8).toNat ∧ (63 : BitVec 8).toNat ≤ 63) := by decide

/-- A modulus of each class. -/
theorem witness_StrategyClassesAgree : modClass 32 = .powerOfTwo ∧ modClass 49 = .smallPower ∧ modClass 61 = .enumerated ∧
    modClass 63 = .fallback := by decide

/-- `IllegalWordOnlySetsIll`, and the last clauses of `AcceptedIffLegal` and `CommandCompletesWithOneErrorAtMost`. -/
theorem witness_IllegalWordOnlySetsIll : legal 0x16#64 = false ∧ legal 0x120#64 = false ∧
    legal 0x8000000000000000#64 = false ∧ legal 0x00#64 = true ∧ legal 0x3F22#64 = true := by decide

/-- A word that is accepted, with each value of `DZ`. -/
theorem witness_AcceptedCommandStatus : decode 0x20#64 = .ok .divrem ∧ (operands 5 0).b = 0 ∧ (operands 5 7).b ≠ 0 :=
  ⟨rfl, by decide, by decide⟩

/-- An offset that keeps its value, at each end of the window. -/
theorem witness_FrameOfResultCommands : writesOnlyY .mulw64 = true ∧ (0x00#8 : Offset) ≠ 0x20#8 ∧ (0x00#8 : Offset) ≠ 0x28#8 ∧
    (0x00#8 : Offset) ≠ 0x40#8 ∧ (0xF8#8 : Offset) ≠ 0x20#8 ∧ (0xF8#8 : Offset) ≠ 0x28#8 ∧ (0xF8#8 : Offset) ≠ 0x40#8 := by decide

/-- `A` changes by `MOVYA` and `MOVZA`, `B` by `MOVYB` and `MOVZB`, `Z` by a division. -/
theorem witness_OnlyNamedCommandsWrite :
    (after (exec .movya (operands 1 3))).map (fun t => decide (t.a ≠ 1)) = some true ∧
    (after (exec .movzb (operands 1 3))).map (fun t => decide (t.b ≠ 3)) = some true ∧
    (after (exec .kdivrem (operands 1 3))).map (fun t => decide (t.z ≠ 2)) = some true := by decide

/-- The reserved offsets at both ends. -/
theorem witness_RegisterMapReads : 0x50 ≤ (0x50#8 : Offset).toNat ∧ 0x50 ≤ (0xFF#8 : Offset).toNat := by decide

/-- Both clauses of `WindowWritesChangeOneLimb`, and no offset falls under both. -/
theorem witness_WindowWritesChangeOneLimb : (0x18#8 : Offset) ∈ [0x00#8, 0x08#8, 0x10#8, 0x18#8] ∧
    (0x40#8 : Offset) ∈ [0x20#8, 0x28#8, 0x30#8, 0x38#8, 0x40#8] ∧ 0x50 ≤ (0x50#8 : Offset).toNat ∧
    (∀ off ∈ [0x00#8, 0x08#8, 0x10#8, 0x18#8], ¬ (off ∈ [0x20#8, 0x28#8, 0x30#8, 0x38#8, 0x40#8] ∨ 0x50 ≤ off.toNat)) := by decide

/-- A host whose one access is this. -/
def asking (acc : Access) : State := oneHost [acc] (operands 5 7)

/-- A 4-byte access, an access at offset 4, and a narrow write: each is refused. -/
theorem witness_UnadmittedAccessHasNoStep :
    ((asking (.read 0x00 4)).events = .turn 0 :: [] ∧ (asking (.read 0x00 4)).hosts[0]? = some { todo := .read 0x00 4 :: [], got := [] } ∧
      ((4 : Nat) ≠ 8 ∨ (0x00#8 : Offset).toNat % 8 ≠ 0)) ∧
    ((asking (.write 0x04 8 1)).events = .turn 0 :: [] ∧
      (asking (.write 0x04 8 1)).hosts[0]? = some { todo := .write 0x04 8 1 :: [], got := [] } ∧
      ((8 : Nat) ≠ 8 ∨ (0x04#8 : Offset).toNat % 8 ≠ 0)) := by decide

/-- `ReadReturnsRegister`, at the first and the last admitted offset. -/
theorem witness_ReadReturnsRegister :
    ((asking (.read 0x00 8)).events = .turn 0 :: [] ∧ (0x00#8 : Offset).toNat % 8 = 0 ∧
      (asking (.read 0x00 8)).hosts[0]? = some { todo := .read 0x00 8 :: [], got := [] }) ∧
    ((asking (.read 0xF8 8)).events = .turn 0 :: [] ∧ (0xF8#8 : Offset).toNat % 8 = 0 ∧
      (asking (.read 0xF8 8)).hosts[0]? = some { todo := .read 0xF8 8 :: [], got := [] }) := by decide

/-- A word that decodes, an illegal word, an operand write at each end of the operands, and the last offset. -/
theorem witness_StepRunsDecodedCommand :
    (∀ off v, (asking (.write off 8 v)).events = .turn 0 :: [] ∧
      (asking (.write off 8 v)).hosts[0]? = some { todo := .write off 8 v :: [], got := [] }) ∧
    ((0x48#8 : Offset).toNat % 8 = 0 ∧ decode 0x20#64 = .ok .divrem ∧ legal 0x16#64 = false) ∧
    ((0x00#8 : Offset).toNat % 8 = 0 ∧ (0x00#8 : Offset) ∈ [0x00#8, 0x08#8, 0x10#8, 0x18#8]) ∧
    ((0x18#8 : Offset).toNat % 8 = 0 ∧ (0x18#8 : Offset) ∈ [0x00#8, 0x08#8, 0x10#8, 0x18#8]) ∧
    (0xF8#8 : Offset).toNat % 8 = 0 :=
  ⟨fun _ _ => ⟨rfl, rfl⟩, ⟨by decide, rfl, by decide⟩, by decide, by decide, by decide⟩

/-- R32: a step that writes `B_HI` changes that limb. -/
theorem test_step_writes_operand : (after (step (asking (.write 0x18 8 9)))).map State.b = some 0x00000000000000090000000000000007#128 := by decide
/-- L2.11, R193: a step that writes the reserved `OP` 0x16 to `CMD` gives `STATUS = 2`. -/
theorem test_step_records_illegal :
    (after (step (asking (.write 0x48 8 0x16)))).map (fun t => (statusWord t.status, t.y)) = some (2, 14) := by decide

/-- Two hosts: the first issues `ADD`, the second reads `Y_LO`. -/
def twoHosts : State :=
  { operands 5 7 with
    hosts := [{ todo := [.write 0x48 8 0x01], got := [] }, { todo := [.read 0x20 8], got := [] }]
    events := [.turn 0, .turn 1] }

/-- The same after the first step. -/
def twoHostsNext : State :=
  { operands 5 7 with
    y := 12, hosts := [{ todo := [], got := [] }, { todo := [.read 0x20 8], got := [] }], events := [.turn 1] }

theorem witness_ReadAfterCommandSeesResult : twoHosts.events = .turn 0 :: .turn 1 :: [] ∧
    twoHosts.hosts[0]? = some { todo := .write 0x48 8 0x01 :: [], got := [] } ∧
    issueCommand 0x01 twoHosts = .next { twoHosts with y := 12 } ∧ step twoHosts = .next twoHostsNext ∧
    twoHostsNext.hosts[1]? = some { todo := .read 0x20 8 :: [], got := [] } ∧ (0x20#8 : Offset).toNat % 8 = 0 :=
  ⟨rfl, rfl, rfl, rfl, rfl, by decide⟩

/-- The same with an illegal word: the second host reads `STATUS`. -/
def twoHostsIllegal : State :=
  { operands 5 7 with
    hosts := [{ todo := [.write 0x48 8 0x16], got := [] }, { todo := [.read 0x40 8], got := [] }]
    events := [.turn 0, .turn 1] }

theorem witness_ReadAfterCommandSeesResult_illegal : twoHostsIllegal.events = .turn 0 :: .turn 1 :: [] ∧
    twoHostsIllegal.hosts[0]? = some { todo := .write 0x48 8 0x16 :: [], got := [] } ∧
    issueCommand 0x16 twoHostsIllegal = .next { twoHostsIllegal with status := Status.illegal } ∧
    ((after (step twoHostsIllegal)).bind (fun t => t.hosts[1]?)) = some { todo := .read 0x40 8 :: [], got := [] } ∧
    (0x40#8 : Offset).toNat % 8 = 0 := ⟨rfl, rfl, rfl, rfl, by decide⟩

/-- A step that is no command: an operand write. -/
theorem witness_ResultsStayUntilNextCommand :
    (after (step (asking (.write 0x00 8 9)))).isSome = true ∧ (asking (.write 0x00 8 9)).events.head? ≠ some .resetInput ∧
    (asking (.write 0x00 8 9)).events.head? ≠ some .powerLoss ∧
    nextAccess (asking (.write 0x00 8 9)) = some (.write 0x00 8 9) ∧ isCommand (.write 0x00 8 9) = false := by decide

/-- Steps that change `A`: a write to `A_HI`, and `MOVZA`; and `B`: a write to `B_LO`, and `MOVYB`. -/
theorem witness_OperandsChangeOnlyByWrites :
    (after (step (asking (.write 0x08 8 9)))).map (fun t => decide (t.a ≠ 5)) = some true ∧
    (after (step (asking (.write 0x48 8 0x32)))).map (fun t => decide (t.a ≠ 5)) = some true ∧
    (after (step (asking (.write 0x10 8 9)))).map (fun t => decide (t.b ≠ 7)) = some true ∧
    (after (step (asking (.write 0x48 8 0x31)))).map (fun t => decide (t.b ≠ 7)) = some true ∧
    (asking (.write 0x48 8 0x31)).events.head? ≠ some .resetInput ∧
    (asking (.write 0x48 8 0x31)).events.head? ≠ some .powerLoss := by decide

theorem witness_TurnKeepsEachHostsOrder : twoHosts.events = .turn 0 :: [.turn 1] ∧ step twoHosts = .next twoHostsNext ∧
    twoHosts.hosts[0]? = some { todo := [.write 0x48 8 0x01], got := [] } := ⟨rfl, rfl, rfl⟩

/-- The same access by the first host of two and by the only host, on the same registers. -/
theorem witness_HostsAreAnonymous : sameCore twoHosts (asking (.write 0x48 8 0x01)) ∧
    nextAccess twoHosts = some (.write 0x48 8 0x01) ∧
    nextAccess (asking (.write 0x48 8 0x01)) = some (.write 0x48 8 0x01) ∧ step twoHosts = .next twoHostsNext ∧
    (after (step (asking (.write 0x48 8 0x01)))).isSome = true :=
  ⟨⟨rfl, rfl, rfl, rfl, rfl⟩, rfl, rfl, rfl, by decide⟩

theorem witness_NeverStopsWhileAdmitted : allAdmitted twoHosts := by
  intro p hp acc ha
  simp only [twoHosts, List.mem_cons, List.not_mem_nil, or_false] at hp
  rcases hp with rfl | rfl <;> (simp only [List.mem_cons, List.not_mem_nil, or_false] at ha; subst ha; decide)

theorem witness_StepKeepsInvariant : MachineInv twoHosts ∧ step twoHosts = .next twoHostsNext :=
  ⟨⟨by simp [statusExclusive, twoHosts, operands, State.reset, Status.clear], by simp [powerStays, twoHosts]⟩, rfl⟩

/-- Both clauses of `ResetInputThenWait`. -/
theorem witness_ResetInputThenWait : ({ operands 5 7 with events := [.resetInput] } : State).events = .resetInput :: [] ∧
    (operands 5 7).events = [] := ⟨rfl, rfl⟩

theorem witness_PowerLossDrawsFreeValues :
    ({ operands 5 7 with events := [.powerLoss, .turn 0] } : State).events = .powerLoss :: [.turn 0] := rfl

/-- The first and the last byte of a register and of a pair, and of the window's last register. -/
theorem witness_BytesOfRegistersAndPairs : 0 < 8 ∧ 7 < 8 ∧ 0 < 16 ∧ 15 < 16 ∧ (0x00#8 : Offset).toNat % 8 = 0 ∧
    (0xF8#8 : Offset).toNat % 8 = 0 := by decide

/-- The window's first and last address, and its neighbours outside. -/
theorem witness_AddressReachesWindow : ((256 : Nat) ≤ 256 ∧ 256 < 256 + 256) ∧ ((256 : Nat) ≤ 511 ∧ 511 < 256 + 256) ∧
    ¬ ((256 : Nat) ≤ 255 ∧ 255 < 256 + 256) ∧ ¬ ((256 : Nat) ≤ 512 ∧ 512 < 256 + 256) := by decide

end Sys2Proof.Tests
end

section
/-!
SUPPORT. The decoder accepts exactly the words of R67's formula.
-/

namespace Sys2Proof

/-- R61: bits 63:16 are the two reserved fields `RSV2` and `RSV1`. -/
theorem upper_eq_zero_iff (w : CmdWord) :
    w.extractLsb' 16 48 = 0#48 ↔ rsv2Field w = 0#32 ∧ rsv1Field w = 0#16 := by
  simp only [rsv2Field, rsv1Field, ← BitVec.toNat_inj, BitVec.extractLsb'_toNat, BitVec.toNat_ofNat,
    Nat.shiftRight_eq_div_pow]
  omega

/-- R63: bits 15:11 of a word are the reserved bits of `EXT`'s immediate. -/
theorem extReservedField_immField (w : CmdWord) : extReservedField (immField w) = w.extractLsb' 11 5 := by
  apply BitVec.eq_of_toNat_eq
  simp only [extReservedField, immField, BitVec.extractLsb'_toNat, Nat.shiftRight_eq_div_pow]
  omega

/-- R67's formula, read by the fields of R61. -/
theorem legal_iff_fields (w : CmdWord) : legal w = true ↔
    (rsv2Field w = 0#32 ∧ rsv1Field w = 0#16) ∧ rsv0Field w = 0#2 ∧ opAssigned (opField w) = true ∧
      (if opField w = 0x15#6 then extReservedField (immField w) = 0#5
        else if opField w = 0x22#6 then modulusLegal (immField w) = true else immField w = 0#8) := by
  have hfields : legal w = (w.extractLsb' 16 48 == 0#48 && rsv0Field w == 0#2 && opAssigned (opField w) &&
      (if opField w = 0x15#6 then w.extractLsb' 11 5 == 0#5
        else if opField w = 0x22#6 then modulusLegal (immField w) else immField w == 0#8)) := rfl
  rw [hfields, ← upper_eq_zero_iff, extReservedField_immField]
  split_ifs <;> simp [and_assoc]

/-- R67, R68: a word decodes iff it is legal. -/
theorem decode_isOk_iff_legal (w : CmdWord) : (∃ i, decode w = .ok i) ↔ legal w = true := by
  rw [legal_iff_fields, ← decodeOp_isOk_iff]
  unfold decode
  split_ifs with h2 h1 h0
  · simp [h2]
  · simp [h1]
  · simp [h0]
  · simp [not_not.1 h2, not_not.1 h1, not_not.1 h0]

/-- An illegal word is rejected by name. -/
theorem decode_error_of_not_legal {w : CmdWord} (h : legal w = false) : ∃ e, decode w = .error e := by
  cases hd : decode w with
  | error e => exact ⟨e, rfl⟩
  | ok i =>
    have : legal w = true := (decode_isOk_iff_legal w).1 ⟨i, hd⟩
    simp [h] at this

end Sys2Proof
end

section
/-!
SUPPORT. One rule per access to the register window: what a read returns, what a write changes, and what it leaves.
-/

namespace Sys2Proof.Machine

/-! ## Reads -/

@[simp] theorem readWindow_regOffset (r : WindowReg) (s : State) : readWindow (regOffset r) s = readReg r s := by
  simp [readWindow, regAt_regOffset]

theorem readWindow_reserved {off : Offset} (h : regAt off = none) (s : State) : readWindow off s = 0 := by
  simp [readWindow, h]

theorem readWindow_congr {off : Offset} {s t : State} (h : ∀ r, off = regOffset r → readReg r t = readReg r s) :
    readWindow off t = readWindow off s := by
  cases hr : regAt off with
  | none => rw [readWindow_reserved hr, readWindow_reserved hr]
  | some r =>
    obtain rfl := regAt_eq_some.1 hr
    simpa using h r rfl

/-- A host reads registers of the CORE only. -/
theorem readWindow_of_sameCore {s t : State} (h : sameCore s t) (off : Offset) :
    readWindow off t = readWindow off s := by
  obtain ⟨ha, hb, hy, hz, hst⟩ := h
  refine readWindow_congr fun r _ => ?_
  simp only [readReg, ha, hb, hy, hz, hst]

/-- R31: the last register of the map is `CMD`, at 0x48. -/
theorem regAt_of_ge {off : Offset} (h : 0x50 ≤ off.toNat) : regAt off = none := by
  cases hr : regAt off with
  | none => rfl
  | some r =>
    obtain rfl := regAt_eq_some.1 hr
    cases r <;> simp [regOffset] at h

/-- R25, R32: `STATUS` as a number. -/
theorem toNat_statusWord (st : Status) :
    (statusWord st).toNat = (if st.dz then 1 else 0) + (if st.ill then 2 else 0) := by
  obtain ⟨dz, ill⟩ := st
  cases dz <;> cases ill <;> rfl

theorem readReg_reset (r : WindowReg) : readReg r State.reset = 0 := by
  cases r <;> rfl

/-! ## Writes -/

/-- R32: the registers a host can write. -/
def operandRegs : List WindowReg := [.aLo, .aHi, .bLo, .bHi]

/-- R32: the registers a host can only read. -/
def readOnlyRegs : List WindowReg := [.yLo, .yHi, .zLo, .zHi, .status]

theorem writeWindow_cmd (w : CmdWord) (s : State) : writeWindow (regOffset .cmd) w s = issueCommand w s := rfl

theorem writeWindow_reg {r : WindowReg} (h : r ≠ .cmd) (v : Limb) (s : State) :
    writeWindow (regOffset r) v s = .next (writeReg r v s) := by
  cases r with
  | cmd => exact absurd rfl h
  | _ => rfl

theorem writeWindow_reserved {off : Offset} (h : regAt off = none) (v : Limb) (s : State) :
    writeWindow off v s = .next s := by
  simp [writeWindow, h]

theorem writeReg_readOnly {r : WindowReg} (h : r ∈ readOnlyRegs) (v : Limb) (s : State) : writeReg r v s = s := by
  simp only [readOnlyRegs, List.mem_cons, List.not_mem_nil, or_false] at h
  rcases h with rfl | rfl | rfl | rfl | rfl <;> rfl

theorem sameOutside_writeReg (r : WindowReg) (v : Limb) (s : State) : sameOutside s (writeReg r v s) := by
  simp [sameOutside]

theorem readReg_writeReg_same {r : WindowReg} (h : r ∈ operandRegs) (v : Limb) (s : State) :
    readReg r (writeReg r v s) = v := by
  simp only [operandRegs, List.mem_cons, List.not_mem_nil, or_false] at h
  rcases h with rfl | rfl | rfl | rfl <;> simp [readReg, writeReg]

/-- A write to one limb leaves the other limb of its pair, and every other register. -/
theorem readReg_writeReg_of_ne {r r' : WindowReg} (h : r' ≠ r) (v : Limb) (s : State) :
    readReg r' (writeReg r v s) = readReg r' s := by
  cases r
  case aLo | aHi | bLo | bHi => cases r' <;> simp [readReg, writeReg] at h ⊢
  all_goals rfl

theorem readWindow_writeReg_of_ne {off : Offset} {r : WindowReg} (h : off ≠ regOffset r) (v : Limb) (s : State) :
    readWindow off (writeReg r v s) = readWindow off s :=
  readWindow_congr fun _ hr' => readReg_writeReg_of_ne (by rintro rfl; exact h hr') v s

/-- R32: a write to an operand limb is read back, and moves no other offset of the window. -/
theorem writeWindow_operand {r : WindowReg} (h : r ∈ operandRegs) (v : Limb) (s : State) :
    writeWindow (regOffset r) v s = .next (writeReg r v s) ∧
      readWindow (regOffset r) (writeReg r v s) = v ∧
      ∀ off, off ≠ regOffset r → readWindow off (writeReg r v s) = readWindow off s := by
  have hcmd : r ≠ .cmd := by rintro rfl; simp [operandRegs] at h
  refine ⟨writeWindow_reg hcmd v s, ?_, fun off ho => readWindow_writeReg_of_ne ho v s⟩
  rw [readWindow_regOffset, readReg_writeReg_same h]

/-- All the ways a write to the window can end. -/
theorem writeWindow_cases {off : Offset} {v : Limb} {s t : State} (ht : writeWindow off v s = .next t) :
    (off = regOffset .cmd ∧ issueCommand v s = .next t) ∨
    (∃ r, off = regOffset r ∧ t = writeReg r v s) ∨ t = s := by
  cases hr : regAt off with
  | none =>
    rw [writeWindow_reserved hr] at ht
    cases ht
    exact .inr (.inr rfl)
  | some r =>
    obtain rfl := regAt_eq_some.1 hr
    by_cases hcmd : r = .cmd
    · subst hcmd
      exact .inl ⟨rfl, (writeWindow_cmd v s).symm.trans ht⟩
    · rw [writeWindow_reg hcmd] at ht
      cases ht
      exact .inr (.inl ⟨r, rfl, rfl⟩)

end Sys2Proof.Machine
end

section
/-!
SUPPORT. What each way a command can end says of `A`, `B` and `Z`, and of the window.
-/

namespace Sys2Proof.Machine

namespace Effect

variable {i : Instr} {s t : State}

/-- R23: a command that writes only `Y` ends with its result. -/
theorem eq_result (e : Effect i s t) (h : writesOnlyY i = true) :
    ∃ v, t = { s with y := v, status := Status.clear } := by
  cases e with
  | result v _ => exact ⟨v, rfl⟩
  | quotient _ _ hi _ | divByZero hi _ => rcases hi with rfl | rfl <;> cases h
  | moveA _ hi | moveB _ hi => rcases hi with ⟨rfl, -⟩ | ⟨rfl, -⟩ <;> cases h
  | nothing hi => subst hi; cases h

/-- R21: a command that changes `A` is a move into it. -/
theorem move_of_a_ne (e : Effect i s t) (h : t.a ≠ s.a) : i = .movya ∧ t.a = s.y ∨ i = .movza ∧ t.a = s.z := by
  cases e with
  | moveA _ hi => exact hi
  | _ => exact absurd rfl h

/-- R22: a command that changes `B` is a move into it. -/
theorem move_of_b_ne (e : Effect i s t) (h : t.b ≠ s.b) : i = .movyb ∧ t.b = s.y ∨ i = .movzb ∧ t.b = s.z := by
  cases e with
  | moveB _ hi => exact hi
  | _ => exact absurd rfl h

/-- R24: a command that changes `Z` is a division with a result. -/
theorem division_of_z_ne (e : Effect i s t) (h : t.z ≠ s.z) : (i = .divrem ∨ i = .kdivrem) ∧ s.b ≠ 0 := by
  cases e with
  | quotient _ _ hi hb => exact ⟨hi, hb⟩
  | _ => exact absurd rfl h

end Effect

/-- A result in `Y` is seen at `Y_LO`, `Y_HI` and `STATUS` only. -/
theorem readWindow_result {off : Offset} (hlo : off ≠ regOffset .yLo) (hhi : off ≠ regOffset .yHi)
    (hst : off ≠ regOffset .status) (v : Value) (st : Status) (s : State) :
    readWindow off { s with y := v, status := st } = readWindow off s := by
  refine readWindow_congr fun r hr => ?_
  cases r with
  | yLo => exact absurd hr hlo
  | yHi => exact absurd hr hhi
  | status => exact absurd hr hst
  | _ => rfl

theorem issueCommand_of_decode {w : CmdWord} {i : Instr} (h : decode w = .ok i) (s : State) :
    issueCommand w s = exec i s := by
  simp [issueCommand, h]

/-- R193. -/
theorem issueCommand_of_not_legal {w : CmdWord} (h : legal w = false) (s : State) :
    issueCommand w s = .next { s with status := Status.illegal } := by
  obtain ⟨e, he⟩ := decode_error_of_not_legal h
  simp [issueCommand, he, recordIllegal]

/-- All the ways a write to `CMD` can end. -/
theorem issueCommand_cases {w : CmdWord} {s t : State} (ht : issueCommand w s = .next t) :
    (∃ i, decode w = .ok i ∧ Effect i s t) ∨ t = { s with status := Status.illegal } := by
  unfold issueCommand at ht
  split at ht
  · rename_i i hd
    obtain ⟨u, hu, he⟩ := exec_effect i s
    rw [ht] at hu
    cases hu
    exact .inl ⟨i, hd, he⟩
  · cases ht
    exact .inr rfl

end Sys2Proof.Machine
end

section
/-!
SUPPORT. Which writes change an operand register, and what a step does to the registers of the CORE.
-/

namespace Sys2Proof.Machine

theorem writeReg_a_ne {r : WindowReg} {v : Limb} {s : State} (h : (writeReg r v s).a ≠ s.a) : r = .aLo ∨ r = .aHi := by
  cases r with
  | aLo => exact .inl rfl
  | aHi => exact .inr rfl
  | _ => exact absurd rfl h

theorem writeReg_b_ne {r : WindowReg} {v : Limb} {s : State} (h : (writeReg r v s).b ≠ s.b) : r = .bLo ∨ r = .bHi := by
  cases r with
  | bLo => exact .inl rfl
  | bHi => exact .inr rfl
  | _ => exact absurd rfl h

/-- A write to the window that changes a register other than `STATUS` (the field `f` of the state) does it as a write
of an operand limb, or as a command. -/
theorem writeWindow_field_ne {f : State → Value} {off : Offset} {v : Limb} {s t : State}
    (hstatus : f { s with status := Status.illegal } = f s) (ht : writeWindow off v s = .next t) (h : f t ≠ f s) :
    (∃ r, off = regOffset r ∧ f (writeReg r v s) ≠ f s) ∨
    (off = regOffset .cmd ∧ ∃ i, decode v = .ok i ∧ Effect i s t) := by
  rcases writeWindow_cases ht with ⟨hoff, hc⟩ | ⟨r, hoff, rfl⟩ | rfl
  · rcases issueCommand_cases hc with hi | rfl
    · exact .inr ⟨hoff, hi⟩
    · exact absurd hstatus h
  · exact .inl ⟨r, hoff, h⟩
  · exact absurd rfl h

/-- R21, R32: the writes to the window that can change `A`. -/
theorem writeWindow_a_ne {off : Offset} {v : Limb} {s t : State} (ht : writeWindow off v s = .next t)
    (h : t.a ≠ s.a) : off = regOffset .aLo ∨ off = regOffset .aHi ∨
      off = regOffset .cmd ∧ (decode v = .ok .movya ∨ decode v = .ok .movza) := by
  rcases writeWindow_field_ne (f := State.a) rfl ht h with ⟨r, hoff, hr⟩ | ⟨hoff, i, hd, e⟩
  · rcases writeReg_a_ne hr with rfl | rfl
    · exact .inl hoff
    · exact .inr (.inl hoff)
  · rcases e.move_of_a_ne h with ⟨rfl, -⟩ | ⟨rfl, -⟩
    · exact .inr (.inr ⟨hoff, .inl hd⟩)
    · exact .inr (.inr ⟨hoff, .inr hd⟩)

/-- R22, R32: the writes to the window that can change `B`. -/
theorem writeWindow_b_ne {off : Offset} {v : Limb} {s t : State} (ht : writeWindow off v s = .next t)
    (h : t.b ≠ s.b) : off = regOffset .bLo ∨ off = regOffset .bHi ∨
      off = regOffset .cmd ∧ (decode v = .ok .movyb ∨ decode v = .ok .movzb) := by
  rcases writeWindow_field_ne (f := State.b) rfl ht h with ⟨r, hoff, hr⟩ | ⟨hoff, i, hd, e⟩
  · rcases writeReg_b_ne hr with rfl | rfl
    · exact .inl hoff
    · exact .inr (.inl hoff)
  · rcases e.move_of_b_ne h with ⟨rfl, -⟩ | ⟨rfl, -⟩
    · exact .inr (.inr ⟨hoff, .inl hd⟩)
    · exact .inr (.inr ⟨hoff, .inr hd⟩)

/-- R42 for a write: the access is 8 bytes wide, at a multiple of 8. -/
theorem admitted_write_iff {off : Offset} {width : Nat} {v : Limb} :
    admitted (.write off width v) = true ↔ width = 8 ∧ off.toNat % 8 = 0 := by
  rw [admitted, Bool.and_eq_true, decide_eq_true_iff, decide_eq_true_iff]
  rfl

theorem nextAccess_of_turn {s : State} {h : Nat} {rest : List Event} {acc : Access} {more : List Access}
    {got : List Limb} (he : s.events = .turn h :: rest) (hp : s.hosts[h]? = some { todo := acc :: more, got := got }) :
    nextAccess s = some acc := by
  simp [nextAccess, he, hp]

/-- A turn that takes an admitted write is that write to the window, on the state in which the access is done. -/
theorem step_of_write {s : State} {h : Nat} {rest : List Event} {off : Offset} {v : Limb} {more : List Access}
    {got : List Limb} (he : s.events = .turn h :: rest) (hoff : off.toNat % 8 = 0)
    (hp : s.hosts[h]? = some { todo := .write off 8 v :: more, got := got }) :
    step s = writeWindow off v (setPort h more got { s with events := rest }) := by
  have hadm : admitted (.write off 8 v) = true := admitted_write_iff.2 ⟨rfl, hoff⟩
  simp [step, takeEvent, he, takeTurn, hp, performAccess, hadm]

/-- Under power and without a reset, a step either leaves the CORE's registers or does an 8-byte write to the window. -/
theorem step_core_cases {s t : State} (ht : step s = .next t) (hr : s.events.head? ≠ some .resetInput)
    (hl : s.events.head? ≠ some .powerLoss) :
    sameCore s t ∨
    ∃ off v u, nextAccess s = some (.write off 8 v) ∧ sameCore s u ∧ writeWindow off v u = .next t := by
  rcases step_cases ht with ⟨-, rfl⟩ | ⟨h, rest, he, e⟩ | ⟨rest, he, -⟩ | ⟨rest, he, -⟩
  · exact .inl ⟨rfl, rfl, rfl, rfl, rfl⟩
  · cases e with
    | idle => exact .inl ⟨rfl, rfl, rfl, rfl, rfl⟩
    | read => exact .inl ⟨rfl, rfl, rfl, rfl, rfl⟩
    | write off width v more got hp ha _ hw =>
      obtain ⟨rfl, -⟩ := admitted_write_iff.1 ha
      exact .inr ⟨off, v, setPort h more got { s with events := rest }, nextAccess_of_turn he hp,
        ⟨rfl, rfl, rfl, rfl, rfl⟩, hw⟩
  · simp [he] at hr
  · simp [he] at hl

end Sys2Proof.Machine
end

section
/-!
The statements about the state and the register map (10_state.md).
-/

namespace Sys2Proof.Machine

/-- Settles O40: every such command ends with a result in `Y`. -/
theorem frameOfResultCommands : Obligations.FrameOfResultCommands := by
  intro i s hi
  obtain ⟨t, ht, e⟩ := exec_effect i s
  obtain ⟨v, rfl⟩ := e.eq_result hi
  exact ⟨_, ht, rfl, rfl, rfl, rfl, e.outside, fun off hlo hhi hst => readWindow_result hlo hhi hst v _ s⟩

/-- Settles O42, by the ways a command can end. -/
theorem onlyNamedCommandsWrite : Obligations.OnlyNamedCommandsWrite := by
  intro i s
  obtain ⟨t, ht, e⟩ := exec_effect i s
  exact ⟨t, ht, e.move_of_a_ne, e.move_of_b_ne, e.division_of_z_ne⟩

/-- Settles O44: an operand limb, a read-only register and a reserved offset each have their rule. -/
theorem windowWritesChangeOneLimb : Obligations.WindowWritesChangeOneLimb := by
  intro off v s
  constructor
  · intro hoff
    obtain ⟨r, hr, rfl⟩ : ∃ r ∈ operandRegs, regOffset r = off := List.mem_map.1 hoff
    obtain ⟨hw, hsame, hother⟩ := writeWindow_operand hr v s
    exact ⟨_, hw, hsame, hother, by simp, by simp, by simp, sameOutside_writeReg r v s⟩
  · rintro (hoff | hoff)
    · obtain ⟨r, hr, rfl⟩ : ∃ r ∈ readOnlyRegs, regOffset r = off := List.mem_map.1 hoff
      have hcmd : r ≠ .cmd := by rintro rfl; simp [readOnlyRegs] at hr
      rw [writeWindow_reg hcmd, writeReg_readOnly hr]
    · exact writeWindow_reserved (regAt_of_ge hoff) v s

/-- Settles O50: such a step keeps the CORE's registers or is a write to the window. -/
theorem operandsChangeOnlyByWrites : Obligations.OperandsChangeOnlyByWrites := by
  intro s t ht hr hl
  rcases step_core_cases ht hr hl with ⟨ha, hb, -⟩ | ⟨off, v, u, hacc, ⟨ha, hb, -⟩, hw⟩
  · exact ⟨fun h => absurd ha.symm h, fun h => absurd hb.symm h⟩
  · rw [ha, hb]
    refine ⟨fun h => ⟨v, ?_⟩, fun h => ⟨v, ?_⟩⟩
    · rcases writeWindow_a_ne hw h with rfl | rfl | ⟨rfl, hd⟩
      · exact .inl hacc
      · exact .inr (.inl hacc)
      · exact .inr (.inr ⟨hacc, hd⟩)
    · rcases writeWindow_b_ne hw h with rfl | rfl | ⟨rfl, hd⟩
      · exact .inl hacc
      · exact .inr (.inl hacc)
      · exact .inr (.inr ⟨hacc, hd⟩)

/-- Settles O43: each offset is that of its register, and a reserved one has none. -/
theorem registerMapReads : Obligations.RegisterMapReads := by
  intro s
  refine ⟨readWindow_regOffset .aLo s, readWindow_regOffset .aHi s, readWindow_regOffset .bLo s,
    readWindow_regOffset .bHi s, readWindow_regOffset .yLo s, readWindow_regOffset .yHi s,
    readWindow_regOffset .zLo s, readWindow_regOffset .zHi s, ?_, readWindow_regOffset .cmd s,
    fun off hoff => readWindow_reserved (regAt_of_ge hoff) s⟩
  calc (readWindow 0x40#8 s).toNat = (statusWord s.status).toNat :=
        congrArg BitVec.toNat (readWindow_regOffset .status s)
    _ = _ := toNat_statusWord s.status

/-- Settles O47: the step is the write, and the write is what its offset says. -/
theorem stepRunsDecodedCommand : Obligations.StepRunsDecodedCommand := by
  intro s h rest off v more got he hoff hp
  have hstep := step_of_write he hoff hp
  refine ⟨hstep, ?_, ?_⟩
  · rintro rfl
    exact ⟨fun i hd => hstep.trans (issueCommand_of_decode hd _),
      fun hl => hstep.trans (issueCommand_of_not_legal hl _)⟩
  · intro hmem
    obtain ⟨r, hr, rfl⟩ : ∃ r ∈ operandRegs, regOffset r = off := List.mem_map.1 hmem
    obtain ⟨hw, hsame, hother⟩ := writeWindow_operand hr v (setPort h more got { s with events := rest })
    refine ⟨_, hstep.trans hw, hsame, fun off' ho => (hother off' ho).trans ?_⟩
    exact readWindow_of_sameCore ⟨rfl, rfl, rfl, rfl, rfl⟩ off'

/-- Settles O55: every register of the map reads 0 at reset. -/
theorem resetState : Obligations.ResetState := by
  refine ⟨rfl, rfl, rfl, rfl, rfl, fun off => ?_, ?_, ?_⟩
  · cases hr : regAt off with
    | none => exact readWindow_reserved hr _
    | some r => rw [regAt_eq_some.1 hr, readWindow_regOffset, readReg_reset]
  · simp [statusExclusive, State.reset]
  · simp [powerStays, State.reset]

end Sys2Proof.Machine
end

section
/-!
SUPPORT. What a turn does to the host whose turn it is, and which host accesses have no step (20_memory.md R42, R47 to
R49).
-/

namespace Sys2Proof.Machine

variable {s t : State} {h : Nat} {rest : List Event} {acc : Access} {more : List Access} {got : List Limb}

/-- R42 for a read: the access is 8 bytes wide, at a multiple of 8. -/
theorem admitted_read_iff {off : Offset} {width : Nat} :
    admitted (.read off width) = true ↔ width = 8 ∧ off.toNat % 8 = 0 := by
  rw [admitted, Bool.and_eq_true, decide_eq_true_iff, decide_eq_true_iff]
  rfl

theorem step_of_turn (he : s.events = .turn h :: rest) : step s = takeTurn h { s with events := rest } := by
  simp [step, takeEvent, he]

theorem takeTurn_of_nothing_left (hp : s.hosts[h]? = some { todo := [], got := got }) : takeTurn h s = .next s := by
  simp [takeTurn, hp]

theorem takeTurn_of_access (hp : s.hosts[h]? = some { todo := acc :: more, got := got }) :
    takeTurn h s = performAccess h acc more got s := by
  simp [takeTurn, hp]

/-- A turn of a host with something to do is its next access, on the state in which the turn is taken. -/
theorem step_of_access (he : s.events = .turn h :: rest)
    (hp : s.hosts[h]? = some { todo := acc :: more, got := got }) :
    step s = performAccess h acc more got { s with events := rest } :=
  (step_of_turn he).trans (takeTurn_of_access hp)

/-- R42: "A model gives such an access no step." -/
theorem step_of_not_admitted (he : s.events = .turn h :: rest)
    (hp : s.hosts[h]? = some { todo := acc :: more, got := got }) (hadm : ¬ admitted acc = true) :
    step s = .refused .accessNotAdmitted :=
  (step_of_access he hp).trans (if_neg hadm)

/-- R47: an admitted read moves its host on, by the value of the offset, and does nothing else. -/
theorem step_of_read {off : Offset} (he : s.events = .turn h :: rest) (hoff : off.toNat % 8 = 0)
    (hp : s.hosts[h]? = some { todo := .read off 8 :: more, got := got }) :
    step s = .next (setPort h more (got ++ [readWindow off s]) { s with events := rest }) := by
  have hadm : admitted (.read off 8) = true := admitted_read_iff.2 ⟨rfl, hoff⟩
  have hread : readWindow off { s with events := rest } = readWindow off s :=
    readWindow_of_sameCore ⟨rfl, rfl, rfl, rfl, rfl⟩ off
  rw [step_of_access he hp, performAccess, if_pos hadm, hread]

/-- R48: an access that is taken is done, whatever it is, and its host has read one value more at most. -/
theorem performAccess_hosts (ht : performAccess h acc more got s = .next t) :
    ∃ got', t.hosts = s.hosts.set h { todo := more, got := got' } ∧ (got' = got ∨ ∃ v, got' = got ++ [v]) := by
  unfold performAccess at ht
  split at ht
  · cases acc with
    | read off width =>
      cases ht
      exact ⟨_, rfl, .inr ⟨_, rfl⟩⟩
    | write off width v =>
      obtain ⟨u, hu, ⟨hhosts, -, -⟩, -⟩ := writeWindow_next off v (setPort h more got s)
      cases hu.symm.trans ht
      exact ⟨got, hhosts.symm, .inl rfl⟩
  · cases ht

/-- R48, R49: after its turn a host has the first of its accesses behind it and the rest before it. -/
theorem takeTurn_own_port {p : HostPort} (hp : s.hosts[h]? = some p) (ht : takeTurn h s = .next t) :
    ∃ p', t.hosts[h]? = some p' ∧ p'.todo = p.todo.tail ∧ (p'.got = p.got ∨ ∃ v, p'.got = p.got ++ [v]) := by
  obtain ⟨todo, got⟩ := p
  cases todo with
  | nil =>
    rw [takeTurn_of_nothing_left hp] at ht
    cases ht
    exact ⟨_, hp, rfl, .inl rfl⟩
  | cons acc more =>
    rw [takeTurn_of_access hp] at ht
    obtain ⟨got', hhosts, hgot⟩ := performAccess_hosts ht
    obtain ⟨hlt, -⟩ := List.getElem?_eq_some_iff.1 hp
    exact ⟨_, by rw [hhosts, List.getElem?_set_self hlt], rfl, hgot⟩

end Sys2Proof.Machine
end

section
/-!
SUPPORT. Host addresses and window offsets (20_memory.md R41), and the bytes of registers and pairs (R44, R45).
-/

namespace Sys2Proof.Machine

/-! ## Addresses -/

theorem windowOffset_of_mem {base addr : Nat} (h : base ≤ addr ∧ addr < base + 256) :
    windowOffset base addr = some (BitVec.ofNat 8 (addr - base)) := if_pos h

theorem windowOffset_of_not_mem {base addr : Nat} (h : ¬ (base ≤ addr ∧ addr < base + 256)) :
    windowOffset base addr = none := if_neg h

theorem toNat_ofNat_sub_of_mem {base addr : Nat} (h : base ≤ addr ∧ addr < base + 256) :
    (BitVec.ofNat 8 (addr - base)).toNat = addr - base := by
  rw [BitVec.toNat_ofNat]
  omega

/-- R44: the eight addresses from that of a register on carry its bytes. -/
theorem windowByte_of_aligned (order : ByteOrder) (base : Nat) {off : Offset} {k : Nat} (s : State)
    (hoff : off.toNat % 8 = 0) (hk : k < 8) :
    windowByte order base (base + off.toNat + k) s = some (regByte order (readWindow off s) k) := by
  have hmem : base ≤ base + off.toNat + k ∧ base + off.toNat + k < base + 256 := by omega
  have hnat := toNat_ofNat_sub_of_mem hmem
  have hreg : alignedOffset (BitVec.ofNat 8 (base + off.toNat + k - base)) = off := by
    rw [alignedOffset, hnat, show (base + off.toNat + k - base) / 8 * 8 = off.toNat by omega, BitVec.ofNat_toNat,
      BitVec.setWidth_eq]
  have hbyte : (base + off.toNat + k - base) % 8 = k := by omega
  rw [windowByte, windowOffset_of_mem hmem, Option.map_some, hreg, hnat, hbyte]

/-! ## A register from its bytes -/

theorem length_regBytes (order : ByteOrder) (r : Limb) : (regBytes order r).length = 8 := by
  simp [regBytes]

theorem getElem?_regBytes (order : ByteOrder) (r : Limb) {k : Nat} (h : k < 8) :
    (regBytes order r)[k]? = some (regByte order r k) := by
  simp [regBytes, h]

/-- R44: the big-endian bytes are the little-endian ones from the other end. -/
theorem regBytes_big_eq_reverse (r : Limb) : regBytes .big r = (regBytes .little r).reverse := by
  refine List.ext_getElem? fun k => ?_
  by_cases hk : k < 8
  · rw [List.getElem?_reverse (by rwa [length_regBytes]), length_regBytes, getElem?_regBytes _ _ hk,
      getElem?_regBytes _ _ (by omega), regByte_big_eq_little hk]
  · rw [List.getElem?_eq_none (by rw [length_regBytes]; omega),
      List.getElem?_eq_none (by rw [List.length_reverse, length_regBytes]; omega)]

theorem limbOfBytes_big (bytes : List Byte) : limbOfBytes .big bytes = limbOfBytes .little bytes.reverse :=
  List.foldr_reverse.symm

/-- R44: bit `i` of the limb that little-endian bytes make is bit `i % 8` of byte `i / 8`. -/
theorem getLsbD_limbOfBytes_little (bytes : List Byte) {i : Nat} (hi : i < 64) :
    (limbOfBytes .little bytes).getLsbD i = (bytes[i / 8]?.getD 0).getLsbD (i % 8) := by
  induction bytes generalizing i with
  | nil => simp [limbOfBytes]
  | cons x bytes ih =>
    have hcons : limbOfBytes .little (x :: bytes) = limbOfBytes .little bytes <<< 8 ||| x.setWidth 64 := rfl
    rw [hcons, BitVec.getLsbD_or, BitVec.getLsbD_shiftLeft, BitVec.getLsbD_setWidth]
    by_cases h8 : i < 8
    · simp [h8, hi, Nat.div_eq_of_lt h8, Nat.mod_eq_of_lt h8]
    · have hdiv : i / 8 = (i - 8) / 8 + 1 := by omega
      have hmod : i % 8 = (i - 8) % 8 := by omega
      rw [ih (by omega), hdiv, hmod, List.getElem?_cons_succ, BitVec.getLsbD_of_ge x i (by omega)]
      simp [h8, hi]

theorem limbOfBytes_regBytes_little (r : Limb) : limbOfBytes .little (regBytes .little r) = r := by
  refine BitVec.eq_of_getLsbD_eq fun i hi => ?_
  rw [getLsbD_limbOfBytes_little _ hi, getElem?_regBytes _ _ (by omega), Option.getD_some, getLsbD_regByte_little,
    Nat.div_add_mod, decide_eq_true (Nat.mod_lt i (by omega)), Bool.true_and]

/-- R44: a register is its eight bytes, in either order. -/
theorem limbOfBytes_regBytes (order : ByteOrder) (r : Limb) : limbOfBytes order (regBytes order r) = r := by
  cases order with
  | little => exact limbOfBytes_regBytes_little r
  | big => rw [limbOfBytes_big, regBytes_big_eq_reverse, List.reverse_reverse, limbOfBytes_regBytes_little]

/-! ## The image of a pair -/

theorem regByte_little_lo {k : Nat} (h : k < 8) (v : Value) : regByte .little (lo v) k = v.extractLsb' (8 * k) 8 := by
  refine BitVec.eq_of_getLsbD_eq fun i hi => ?_
  rw [getLsbD_regByte_little, lo, BitVec.getLsbD_extractLsb', BitVec.getLsbD_extractLsb',
    decide_eq_true (show 8 * k + i < 64 by omega), Bool.true_and, Nat.zero_add]

theorem regByte_little_hi {k : Nat} (h : k < 8) (v : Value) :
    regByte .little (hi v) k = v.extractLsb' (8 * (k + 8)) 8 := by
  refine BitVec.eq_of_getLsbD_eq fun i hi => ?_
  rw [getLsbD_regByte_little, Machine.hi, BitVec.getLsbD_extractLsb', BitVec.getLsbD_extractLsb',
    decide_eq_true (show 8 * k + i < 64 by omega), Bool.true_and, show 64 + (8 * k + i) = 8 * (k + 8) + i by omega]

theorem getElem?_pairImage_lo (order : ByteOrder) (v : Value) {k : Nat} (h : k < 8) :
    (pairImage order v)[k]? = some (regByte order (lo v) k) := by
  rw [pairImage, List.getElem?_append_left (by rwa [length_regBytes]), getElem?_regBytes _ _ h]

theorem getElem?_pairImage_hi (order : ByteOrder) (v : Value) {k : Nat} (h : k < 8) :
    (pairImage order v)[k + 8]? = some (regByte order (hi v) k) := by
  rw [pairImage, List.getElem?_append_right (by rw [length_regBytes]; omega), length_regBytes, Nat.add_sub_cancel,
    getElem?_regBytes _ _ h]

/-- R45: in the little-endian order the image of a pair is the 16 bytes of its value. -/
theorem getElem?_pairImage_little (v : Value) {k : Nat} (h : k < 16) :
    (pairImage .little v)[k]? = some (v.extractLsb' (8 * k) 8) := by
  by_cases h8 : k < 8
  · rw [getElem?_pairImage_lo _ _ h8, regByte_little_lo h8]
  · obtain ⟨j, rfl⟩ := Nat.exists_eq_add_of_le' (Nat.le_of_not_lt h8)
    rw [getElem?_pairImage_hi _ _ (by omega), regByte_little_hi (by omega)]

end Sys2Proof.Machine
end

section
/-!
The statements about host accesses, bytes and addresses (20_memory.md).
-/

namespace Sys2Proof.Machine

/-- Settles O51: the turn's effect on the outside gives the other hosts, and the access it takes gives its own. -/
theorem turnKeepsEachHostsOrder : Obligations.TurnKeepsEachHostsOrder := by
  intro s t h rest he ht
  rw [step_of_turn he] at ht
  obtain ⟨hevents, -, hothers, hlength⟩ := (takeTurn_cases ht).outside
  exact ⟨hevents, hlength, hothers, fun p hp => takeTurn_own_port (s := { s with events := rest }) hp ht⟩

/-- Settles O58: the bytes by their bits, the image of a pair by its two halves, the addresses by R41. -/
theorem bytesOfRegistersAndPairs : Obligations.BytesOfRegistersAndPairs := by
  refine ⟨fun r => ⟨fun _ _ => ⟨rfl, rfl⟩, fun order => limbOfBytes_regBytes order r⟩,
    fun v => ⟨fun _ hk => getElem?_pairImage_little v hk, fun order => ⟨?_, ?_, ?_⟩⟩,
    fun order base _ _ s hoff hk => windowByte_of_aligned order base s hoff hk⟩
  · rw [pairImage, List.length_append, length_regBytes, length_regBytes]
  · exact List.take_left' (length_regBytes order _)
  · exact List.drop_left' (length_regBytes order _)

/-- Settles O45: neither a read nor a write of such a width or offset is admitted. -/
theorem unadmittedAccessHasNoStep : Obligations.UnadmittedAccessHasNoStep := by
  rintro s h rest off width v more got he hbad (hp | hp)
  · refine step_of_not_admitted he hp fun hadm => ?_
    obtain ⟨hwidth, hoff⟩ := admitted_read_iff.1 hadm
    exact hbad.elim (· hwidth) (· hoff)
  · refine step_of_not_admitted he hp fun hadm => ?_
    obtain ⟨hwidth, hoff⟩ := admitted_write_iff.1 hadm
    exact hbad.elim (· hwidth) (· hoff)

/-- Settles O46: such a turn is an admitted read. -/
theorem readReturnsRegister : Obligations.ReadReturnsRegister := by
  intro s h rest off more got he hoff hp
  exact step_of_read he hoff hp

/-- Settles O59: a distance from the base below 256 is an 8-bit offset. -/
theorem addressReachesWindow : Obligations.AddressReachesWindow := by
  refine ⟨fun base addr => ⟨fun h => ?_, windowOffset_of_not_mem⟩, ?_⟩
  · exact ⟨_, windowOffset_of_mem h, toNat_ofNat_sub_of_mem h⟩
  · exact Nat.mul_mod_right 256 Config.windowIndex

end Sys2Proof.Machine
end

section
/-!
SUPPORT. The opcode map read back (R66): the command that an opcode and an immediate decode to has that opcode and that
immediate. What `IMM8` says in an `EXT` word (R63), and that a word with a bad `IMM8` is refused (R63 to R65).
-/

namespace Sys2Proof

/-- R61 to R66: the decoder reads a well-formed command back from its word. -/
theorem decode_encode {i : Instr} (h : i.wellFormed = true) : decode (encode i) = .ok i := by
  cases i with
  | ext signed width => exact Laws.EncodingRoundTrip.ext signed width h
  | modm m => exact Laws.EncodingRoundTrip.modm m h
  | _ => rfl

/-- R68, D9, by fields: a pair that decodes is the opcode and the immediate of a well-formed command. -/
theorem decodeOp_ok {op : BitVec 6} {imm : BitVec 8} {i : Instr} (h : decodeOp op imm = .ok i) :
    i.wellFormed = true ∧ opcode i = op ∧ immOf i = imm := by
  unfold decodeOp at h
  split at h
  case h_22 =>
    obtain ⟨signed, width, rfl, himm⟩ := decodeExt_ok h
    exact ⟨rfl, rfl, himm⟩
  case h_28 =>
    obtain ⟨rfl, hlegal⟩ := decodeModm_ok h
    exact ⟨hlegal, rfl, rfl⟩
  case h_33 => cases h
  all_goals
    obtain ⟨rfl, rfl⟩ := plain_ok h
    exact ⟨rfl, rfl, rfl⟩

/-- R69: in a word whose reserved fields are zero, `OP` and `IMM8` alone say what it decodes to. -/
theorem decode_of_reserved_zero {w : CmdWord} (h0 : rsv0Field w = 0#2) (h1 : rsv1Field w = 0#16)
    (h2 : rsv2Field w = 0#32) : decode w = decodeOp (opField w) (immField w) :=
  (congrArg decode (eq_wordOf h2 h1 h0)).trans (decode_wordOf _ _)

/-- A word whose `IMM8` fails the condition of its `OP` is refused. -/
theorem decode_error_of_imm {w : CmdWord}
    (h : ¬ if opField w = 0x15#6 then extReservedField (immField w) = 0#5
      else if opField w = 0x22#6 then modulusLegal (immField w) = true else immField w = 0#8) :
    ∃ r, decode w = .error r := by
  refine decode_error_of_not_legal (Bool.eq_false_iff.2 fun hlegal => h ?_)
  obtain ⟨-, -, -, himm⟩ := (legal_iff_fields w).1 hlegal
  exact himm

/-! ## The subfields of `EXT`'s immediate (R63) -/

theorem extReservedField_eq_zero_iff (imm : BitVec 8) : extReservedField imm = 0#5 ↔ imm.toNat < 8 := by
  rw [extReservedField, ← BitVec.toNat_inj, BitVec.extractLsb'_toNat, Nat.shiftRight_eq_div_pow, BitVec.toNat_ofNat]
  omega

theorem extSignField_of_lt :
    ∀ imm : BitVec 8, imm.toNat < 8 → extSignField imm = decide (4 ≤ imm.toNat) := by
  decide

/-- `width(W) = 8 · 2^W`. -/
theorem bits_extWidthField : ∀ imm : BitVec 8, (extWidthField imm).bits = 8 * 2 ^ (imm.toNat % 4) := by
  decide

theorem decodeExt_of_lt {imm : BitVec 8} (h : imm.toNat < 8) :
    decodeExt imm = .ok (.ext (decide (4 ≤ imm.toNat)) (extWidthField imm)) := by
  rw [decodeExt, if_pos ((extReservedField_eq_zero_iff imm).2 h), extSignField_of_lt imm h]

/-- R74: an example word, given that it is the encoding of a well-formed command. -/
theorem encode_eq_and_decode_eq {i : Instr} {w : CmdWord} (h : i.wellFormed = true) (hw : encode i = w) :
    encode i = w ∧ decode w = .ok i :=
  ⟨hw, hw ▸ decode_encode h⟩

end Sys2Proof
end

section
/-!
SUPPORT. `DZ` after an accepted command (R71, R192), and the accesses of a host that is alone with the CORE (R72).
-/

namespace Sys2Proof.Machine

/-- R192: a division by zero leaves `DZ` set. -/
theorem Effect.dz_of_zero_divisor {i : Instr} {s t : State} (e : Effect i s t) (hi : i = .divrem ∨ i = .kdivrem)
    (hb : s.b = 0) : t.status.dz = true := by
  cases e with
  | divByZero _ _ => rfl
  | quotient _ _ _ hne => exact absurd hb hne
  | result _ h => rcases hi with rfl | rfl <;> cases h
  | moveA _ h | moveB _ h => rcases h with ⟨rfl, -⟩ | ⟨rfl, -⟩ <;> simp at hi
  | nothing h => subst h; simp at hi

section OneHost

variable {s t : State}

theorem run_succ (h : step s = .next t) (k : Nat) :
    Host.Core.run Sys2Proof.core (k + 1) s = Host.Core.run Sys2Proof.core k t := by
  have hcore : Sys2Proof.core.step s = .next t := h
  simp [Host.Core.run, hcore]

/-- A lone host's next access, a write, leaves it the rest of its accesses. -/
theorem step_oneHost_write {off : Offset} (hoff : off.toNat % 8 = 0) (v : Limb) (more : List Access) (s : State) :
    step (oneHost (.write off 8 v :: more) s) = writeWindow off v (oneHost more s) :=
  step_of_write (s := oneHost (.write off 8 v :: more) s) (rest := more.map fun _ => .turn 0) rfl hoff rfl

/-- R72: `WR` of an operand limb. -/
theorem step_oneHost_writeAccess {r : WindowReg} (hr : r ∈ operandRegs) (v : Limb) (more : List Access) (s : State) :
    step (oneHost (writeAccess r v :: more) s) = .next (oneHost more (writeReg r v s)) := by
  simp only [operandRegs, List.mem_cons, List.not_mem_nil, or_false] at hr
  rcases hr with rfl | rfl | rfl | rfl <;> exact step_oneHost_write rfl v more s

/-- R72: `CMD` with a well-formed command. -/
theorem step_oneHost_command {i : Instr} (h : i.wellFormed = true) (more : List Access) (s : State) :
    step (oneHost (commandAccess (encode i) :: more) s) = exec i (oneHost more s) :=
  (step_oneHost_write rfl (encode i) more s).trans (issueCommand_of_decode (decode_encode h) _)

/-- R101: `EXT` with `S = 1` and `W = 3` sign-extends the whole low limb of `A`. -/
theorem exec_ext_signed_w64 {x : Limb} (h : lo s.a = x) :
    exec (.ext true .w64) s = .next { s with y := x.signExtend 128, status := Status.clear } := by
  have hsource : narrowSource 64 s.a = x := (BitVec.setWidth_eq _).trans h
  rw [← hsource]
  rfl

/-- R73: the three accesses of `LDS A, x`, and the state they end in. -/
theorem run_ldsA (x : Limb) (s : State) :
    Host.Core.run Sys2Proof.core 3 (oneHost (lineAccesses (.ldsA x)) s) =
      .next (oneHost [] { s with a := x.signExtend 128, y := x.signExtend 128, status := Status.clear }) := by
  have hlow : lo (writeReg .aLo x s).a = x := lo_pair (hi s.a) x
  calc Host.Core.run Sys2Proof.core 3 (oneHost (lineAccesses (.ldsA x)) s)
    _ = Host.Core.run Sys2Proof.core 2
          (oneHost [commandAccess (encode (.ext true .w64)), commandAccess (encode .movya)] (writeReg .aLo x s)) :=
        run_succ (step_oneHost_writeAccess (by simp [operandRegs]) x _ s) 2
    _ = Host.Core.run Sys2Proof.core 1
          (oneHost [commandAccess (encode .movya)]
            { writeReg .aLo x s with y := x.signExtend 128, status := Status.clear }) :=
        run_succ ((step_oneHost_command rfl _ _).trans
          (exec_ext_signed_w64 (s := oneHost _ (writeReg .aLo x s)) hlow)) 1
    _ = .next _ := run_succ (step_oneHost_command rfl [] _) 0

end OneHost

end Sys2Proof.Machine
end

section
/-!
The statements about the encoding (30_encoding.md).
-/

namespace Sys2Proof.Machine

/-- Settles O1, by the round trip of each command. -/
theorem decodeReadsBackEncode : Obligations.DecodeReadsBackEncode := by
  intro i h
  exact decode_encode h

/-- Settles O2: an accepted word is the layout of its two fields, and these are the command's. -/
theorem acceptedWordIsItsEncoding : Obligations.AcceptedWordIsItsEncoding := by
  intro w i h
  obtain ⟨hw, hop⟩ := decode_ok_iff.1 h
  obtain ⟨hwf, hopcode, himm⟩ := decodeOp_ok hop
  exact ⟨hwf, by rw [encode_eq_wordOf, hopcode, himm, ← hw]⟩

/-- Settles O3: the decoder against the formula, field by field, and R193 for the other words. -/
theorem acceptedIffLegal : Obligations.AcceptedIffLegal := by
  refine ⟨decode_isOk_iff_legal, fun w s h => ?_⟩
  exact (writeWindow_cmd w s).trans (issueCommand_of_not_legal h s)

/-- Settles O5: an accepted immediate by its opcode's own decoder, a refused one by R67's formula. -/
theorem immediateFieldsDecode : Obligations.ImmediateFieldsDecode := by
  intro w h0 h1 h2
  have hdecode : decode w = decodeOp (opField w) (immField w) := decode_of_reserved_zero h0 h1 h2
  refine ⟨fun hop hlt => ?_, fun hop hge => ?_, fun hop => ⟨fun hm => ?_, fun hm => ?_⟩,
    fun hext hmodm himm => ?_⟩
  · refine ⟨extWidthField (immField w), bits_extWidthField _, ?_⟩
    rw [hdecode, hop]
    exact decodeExt_of_lt hlt
  · refine decode_error_of_imm ?_
    rw [if_pos hop, extReservedField_eq_zero_iff]
    omega
  · rw [hdecode, hop]
    exact decodeModm_of_legal (modulusLegal_iff.2 hm)
  · refine decode_error_of_imm ?_
    rwa [hop, if_neg (by decide), if_pos rfl, modulusLegal_iff]
  · refine decode_error_of_imm ?_
    rwa [if_neg hext, if_neg hmodm]

/-- Settles O38, by the ways a command can end. -/
theorem acceptedCommandStatus : Obligations.AcceptedCommandStatus := by
  intro w i s h
  obtain ⟨t, ht, e⟩ := exec_effect i s
  obtain ⟨hill, hdz⟩ := e.status
  exact ⟨t, (issueCommand_of_decode h s).trans ht, ht, hill, hdz, fun ⟨hi, hb⟩ => e.dz_of_zero_divisor hi hb⟩

/-- Settles O60: sign-extension keeps the signed reading. -/
theorem ldsConstructsSignedValue : Obligations.LdsConstructsSignedValue := by
  intro x s
  exact ⟨_, run_ldsA x s, BitVec.toInt_signExtend_of_le (by omega), rfl⟩

/-- Settles O4: each legal word is computed from its command and read back by the round trip. -/
theorem encodingExamples : Obligations.EncodingExamples :=
  ⟨encode_eq_and_decode_eq rfl rfl, encode_eq_and_decode_eq rfl rfl, encode_eq_and_decode_eq rfl rfl,
    encode_eq_and_decode_eq rfl rfl, encode_eq_and_decode_eq rfl rfl, encode_eq_and_decode_eq rfl rfl,
    encode_eq_and_decode_eq rfl rfl, encode_eq_and_decode_eq rfl rfl, encode_eq_and_decode_eq rfl rfl,
    encode_eq_and_decode_eq rfl rfl, encode_eq_and_decode_eq rfl rfl, encode_eq_and_decode_eq rfl rfl,
    encode_eq_and_decode_eq rfl rfl, rfl, rfl, rfl, rfl, rfl⟩

end Sys2Proof.Machine
end

section
/-!
SUPPORT. The commands of the limb unit as one next state over the whole 128-bit value (40_limb.md): what each writes to
`Y`, with `STATUS` clear and every other field kept.
-/

namespace Sys2Proof.Machine

/-! ## How a result ends in `Y` -/

/-- R71: a command whose result is `v`, computed limb by limb as `u`. -/
theorem finishY_of_eq {u v : Value} (h : u = v) (s : State) :
    finishY u s = .next { s with y := v, status := Status.clear } := by
  subst h; rfl

/-- R91 to R96, R100, D14: a Boolean result that tells `p`, given that it was computed as a test of `q`. -/
theorem boolValue_of_decide {b : Bool} {p q : Prop} [Decidable p] [Decidable q] (hb : b = decide q) (h : q ↔ p) :
    boolValue b = if p then 1 else 0 := by
  simp only [boolValue, hb, decide_eq_true_iff, h]

/-! ## Adder, subtractor, shifter (R80 to R90) -/

theorem exec_add (s : State) : exec .add s = .next { s with y := s.a + s.b, status := Status.clear } :=
  finishY_of_eq (addLimbs_eq s.a s.b) s

theorem exec_sub (s : State) : exec .sub s = .next { s with y := s.a - s.b, status := Status.clear } :=
  finishY_of_eq (subLimbs_eq s.a s.b) s

theorem exec_inc (s : State) : exec .inc s = .next { s with y := s.a + 1, status := Status.clear } :=
  finishY_of_eq (addLimbs_eq s.a 1) s

theorem exec_dec (s : State) : exec .dec s = .next { s with y := s.a - 1, status := Status.clear } :=
  finishY_of_eq (subLimbs_eq s.a 1) s

theorem exec_shl (s : State) :
    exec .shl s = .next { s with y := s.a <<< (lo s.b).toInt.toNat, status := Status.clear } :=
  finishY_of_eq (shlLimbs_eq s.a (lo s.b).toInt) s

theorem exec_shr (s : State) :
    exec .shr s = .next { s with y := s.a >>> (lo s.b).toInt.toNat, status := Status.clear } :=
  finishY_of_eq (shrLimbs_eq s.a (lo s.b).toInt) s

/-- R89: the shift by the natural part of a signed count is the no-op, the zero or the shift that the count asks for. -/
theorem shiftLeft_toNat_cases (a : Value) (n : Int) :
    a <<< n.toNat = if n ≤ 0 then a else if 128 ≤ n then 0 else a <<< n.toNat := by
  split_ifs with hneg hbig
  · rw [Int.toNat_of_nonpos hneg, BitVec.shiftLeft_zero]
  · exact BitVec.shiftLeft_eq_zero (by omega)
  · rfl

/-- R90: the same cases for the right shift. -/
theorem ushiftRight_toNat_cases (a : Value) (n : Int) :
    a >>> n.toNat = if n ≤ 0 then a else if 128 ≤ n then 0 else a >>> n.toNat := by
  split_ifs with hneg hbig
  · rw [Int.toNat_of_nonpos hneg, BitVec.ushiftRight_zero]
  · exact BitVec.ushiftRight_eq_zero (by omega)
  · rfl

/-! ## Exact values modulo `2^128` (R104) -/

theorem toNat_sub_eq_emod (a b : Value) : ((a - b).toNat : Int) = ((a.toNat : Int) - b.toNat) % 2 ^ 128 := by
  have ha := a.isLt
  have hb := b.isLt
  rw [BitVec.toNat_sub]
  omega

/-! ## Powers of two (R100) -/

/-- R100: the test is on the whole value, with the wrapping decrement of R83. -/
theorem isPow2_eq (v : Value) : isPow2 v = decide (v ≠ 0 ∧ v &&& (v - 1) = 0) := by
  rw [isPow2, subLimbs_eq, Bool.decide_and]

/-! ## Narrow sources (R101) -/

theorem extWidth_bits_le (k : ExtWidth) : k.bits ≤ 64 := by cases k <;> decide

/-- R101: the source is the value's low bits; those above it are ignored. -/
theorem toNat_narrowSource {k : Nat} (hk : k ≤ 64) (a : Value) : (narrowSource k a).toNat = a.toNat % 2 ^ k := by
  rw [narrowSource, BitVec.toNat_setWidth, toNat_lo, Nat.mod_mod_of_dvd _ (pow_dvd_pow 2 hk)]

theorem toNat_extend_unsigned {k : Nat} (hk : k ≤ 128) (x : BitVec k) : (extend false x).toNat = x.toNat :=
  BitVec.toNat_setWidth_of_le hk

theorem toInt_extend_signed {k : Nat} (hk : k ≤ 128) (x : BitVec k) : (extend true x).toInt = x.toInt :=
  BitVec.toInt_signExtend_of_le hk

end Sys2Proof.Machine
end

section
/-!
The statements about the limb unit (40_limb.md).
-/

namespace Sys2Proof.Machine

/-- Settles O6: the two-limb adder is the addition of the whole value. -/
theorem addIsSumModulo : Obligations.AddIsSumModulo := ⟨rfl, exec_add⟩

/-- Settles O7: the two-limb subtractor is the subtraction of the whole value. -/
theorem subIsDifferenceModulo : Obligations.SubIsDifferenceModulo := ⟨rfl, exec_sub⟩

/-- Settles O8: the adder and the subtractor with 1 in place of `B`. -/
theorem incAndDecByOne : Obligations.IncAndDecByOne := ⟨rfl, rfl, fun s => ⟨exec_inc s, exec_dec s⟩⟩

/-- Settles O9: each operation limb by limb is the operation on the whole value. -/
theorem bitwiseOnWholeValue : Obligations.BitwiseOnWholeValue := by
  refine ⟨rfl, rfl, rfl, rfl, fun s => ⟨?_, ?_, ?_, ?_, ?_⟩⟩
  · exact finishY_of_eq (pair_and s.a s.b) s
  · exact finishY_of_eq (pair_or s.a s.b) s
  · exact finishY_of_eq (pair_xor s.a s.b) s
  · exact finishY_of_eq (pair_not s.a) s
  · exact BitVec.toNat_not

/-- Settles O10: the shift by the count's natural part covers its three cases. -/
theorem shlByEveryCount : Obligations.ShlByEveryCount := by
  refine ⟨rfl, fun s => ?_⟩
  rw [← shiftLeft_toNat_cases]
  exact exec_shl s

/-- Settles O11: the shift by the count's natural part covers its three cases. -/
theorem shrByEveryCount : Obligations.ShrByEveryCount := by
  refine ⟨rfl, fun s => ?_⟩
  rw [← ushiftRight_toNat_cases]
  exact exec_shr s

/-- Settles O12: each whole-value result, read as a number. -/
theorem wrapLawOfLimbFamily : Obligations.WrapLawOfLimbFamily := by
  refine fun s => ⟨?_, ?_, ?_, ?_, fun n hn => ⟨?_, ?_⟩⟩
  · exact ⟨_, exec_add s, BitVec.toNat_add s.a s.b, rfl⟩
  · exact ⟨_, exec_sub s, toNat_sub_eq_emod s.a s.b, rfl⟩
  · exact ⟨_, exec_inc s, BitVec.toNat_add s.a 1, rfl⟩
  · exact ⟨_, exec_dec s, toNat_sub_eq_emod s.a 1, rfl⟩
  · refine ⟨_, exec_shl s, ?_, rfl⟩
    rw [hn, Int.toNat_natCast, BitVec.toNat_shiftLeft, Nat.shiftLeft_eq]
  · refine ⟨_, exec_shr s, ?_, rfl⟩
    rw [hn, Int.toNat_natCast, BitVec.toNat_ushiftRight, Nat.shiftRight_eq_div_pow]

/-- Settles O14: each lexicographic comparison of the limbs is the comparison of the numbers. -/
theorem comparisonsAreUnsigned : Obligations.ComparisonsAreUnsigned := by
  refine ⟨rfl, rfl, rfl, rfl, rfl, rfl, fun s => ⟨?_, ?_, ?_, ?_, ?_, ?_⟩⟩
  · exact finishY_of_eq (boolValue_of_decide (eqLimbs_eq s.a s.b) BitVec.toNat_inj.symm) s
  · rw [← ite_not]
    exact finishY_of_eq (boolValue_of_decide (neLimbs_eq s.a s.b) BitVec.toNat_inj.symm.not) s
  · exact finishY_of_eq (boolValue_of_decide (ltuLimbs_eq s.a s.b) BitVec.lt_def) s
  · exact finishY_of_eq (boolValue_of_decide (leuLimbs_eq s.a s.b) BitVec.le_def) s
  · exact finishY_of_eq (boolValue_of_decide (gtuLimbs_eq s.a s.b) BitVec.lt_def) s
  · exact finishY_of_eq (boolValue_of_decide (geuLimbs_eq s.a s.b) BitVec.le_def) s

/-- Settles O15, by what the count says of the bits of the whole value. -/
theorem clzCountsFromTheTop : Obligations.ClzCountsFromTheTop :=
  ⟨rfl, fun s => ⟨clzLimbs s.a, rfl, clzLimbs_le s.a, clzLimbs_zero_bits s.a, clzLimbs_one_bit s.a⟩⟩

/-- Settles O16, by what the count says of the bits of the whole value. -/
theorem ctzCountsFromTheBottom : Obligations.CtzCountsFromTheBottom :=
  ⟨rfl, fun s => ⟨ctzLimbs s.a, rfl, ctzLimbs_le s.a, ctzLimbs_zero_bits s.a, ctzLimbs_one_bit s.a⟩⟩

/-- Settles O18: the test on the whole value, which holds of the powers of two alone. -/
theorem ispow2TellsPowersOfTwo : Obligations.Ispow2TellsPowersOfTwo := by
  refine ⟨rfl, fun s => ⟨?_, ?_⟩⟩
  · exact finishY_of_eq (boolValue_of_decide (isPow2_eq s.a) Iff.rfl) s
  · rw [← isPow2_iff, isPow2_eq, decide_eq_true_iff]

/-- Settles O19: extension keeps the reading of the narrow source, and the source is `A` modulo `2^k`. -/
theorem extExtendsNarrowSource : Obligations.ExtExtendsNarrowSource := by
  refine ⟨⟨rfl, rfl, rfl, rfl, rfl, rfl, rfl, rfl⟩, fun k s => ?_⟩
  have hk : k.bits ≤ 64 := extWidth_bits_le k
  have hsource : (narrowSource k.bits s.a).toNat = s.a.toNat % 2 ^ k.bits := toNat_narrowSource hk s.a
  refine ⟨⟨extend false (narrowSource k.bits s.a), rfl, ?_⟩, ⟨extend true (narrowSource k.bits s.a), rfl, ?_⟩⟩
  · rw [toNat_extend_unsigned (by omega), hsource]
  · rw [toInt_extend_signed (by omega), BitVec.toInt_eq_toNat_bmod, hsource, Int.natCast_emod, Int.emod_bmod]

end Sys2Proof.Machine
end

section
/-!
SUPPORT. The commands of the multiplier as one next state over the whole 128-bit value (41_multiply.md).
-/

namespace Sys2Proof.Machine

@[simp] theorem hi_zextLimb (x : Limb) : hi (zextLimb x) = 0 := hi_pair 0 x

@[simp] theorem lo_zextLimb (x : Limb) : lo (zextLimb x) = x := lo_pair 0 x

theorem exec_mul (s : State) : exec .mul s = .next { s with y := s.a * s.b, status := Status.clear } :=
  finishY_of_eq (mulLimbs_eq s.a s.b) s

theorem exec_mulw64 (s : State) :
    exec .mulw64 s = .next { s with y := mulWide (lo s.a) (lo s.b), status := Status.clear } := rfl

theorem exec_fmulh64 (s : State) :
    exec .fmulh64 s = .next { s with y := zextLimb (fmulHigh s.a (lo s.b)), status := Status.clear } := rfl

/-- R123, R125: bits 191:128 of the product, bounded by the multiplier. -/
theorem mul_div_lt_multiplier (a : Value) {m : Limb} (hm : 1 ≤ m.toNat) : a.toNat * m.toNat / 2 ^ 128 < m.toNat := by
  have hne : m ≠ 0 := by rintro rfl; simp at hm
  rw [← toNat_fmulHigh]
  exact fmulHigh_lt a m hne

end Sys2Proof.Machine
end

section
/-!
The statements about the multiplier (41_multiply.md).
-/

namespace Sys2Proof.Machine

/-- Settles O20: the high half of the product fits a limb, and the four 32-bit products add up to it. -/
theorem portableMulHighIsExact : Obligations.PortableMulHighIsExact :=
  fun a b => ⟨toNat_mulhi64 a b, mulhiPortable_eq a b⟩

/-- Settles O21: the split-half multiply-accumulate is the multiplication of the whole value. -/
theorem mulIsTruncatedProduct : Obligations.MulIsTruncatedProduct := ⟨rfl, exec_mul⟩

/-- Settles O22: the two halves of the product of the low limbs lose nothing. -/
theorem mulw64IsExactProduct : Obligations.Mulw64IsExactProduct :=
  ⟨rfl, fun s => ⟨_, exec_mulw64 s, toNat_mulWide (lo s.a) (lo s.b)⟩⟩

/-- Settles O23: the limb is bits 191:128 of the product, zero-extended, and R125 bounds it by the multiplier. -/
theorem fmulh64IsHighWord : Obligations.Fmulh64IsHighWord := by
  refine ⟨rfl, fun s => ⟨_, exec_fmulh64 s, ?_, hi_zextLimb _, fun hm => ?_⟩⟩
  · rw [toNat_zextLimb, toNat_fmulHigh]
  · have hlt := mul_div_lt_multiplier s.a hm
    refine ⟨Nat.le_sub_one_of_lt hlt, ?_⟩
    rwa [lo_zextLimb, toNat_fmulHigh]

end Sys2Proof.Machine
end

section
/-!
SUPPORT. `DIVREM` as one next state (42_divrem.md), the arithmetic of a division that leaves no remainder, and the bit
lengths of the long division's operands.
-/

namespace Sys2Proof.Machine

/-! ## The command (R135, R192) -/

theorem exec_divrem_zero {s : State} (hb : s.b = 0) :
    exec .divrem s = .next { s with status := Status.divByZero } := by
  have hnone : divrem s.a s.b = none := by rw [hb, divrem_zero]
  simp only [exec, execDivrem, hnone, finishDivision_zero]

theorem exec_divrem {s : State} (hb : s.b ≠ 0) :
    exec .divrem s = .next { s with y := s.a / s.b, z := s.a % s.b, status := Status.clear } := by
  simp only [exec, execDivrem, divrem_eq s.a hb, finishDivision_some]

/-- R135: the command's two results, given the floor quotient and remainder. -/
theorem exec_divrem_of_eq {s : State} {q r : Value} (hb : s.b ≠ 0) (h : s.a / s.b = q ∧ s.a % s.b = r) :
    exec .divrem s = .next { s with y := q, z := r, status := Status.clear } := by
  rw [exec_divrem hb, h.1, h.2]

/-! ## Divisions without a remainder, and by a power of two (R140) -/

/-- A product that does not wrap is divided by either factor without a remainder. -/
theorem div_mod_of_toNat_eq_mul {p q b : Value} (hb : b ≠ 0) (h : p.toNat = q.toNat * b.toNat) :
    p / b = q ∧ p % b = 0 := by
  constructor <;> apply BitVec.eq_of_toNat_eq
  · rw [BitVec.toNat_udiv, h, Nat.mul_div_cancel _ (value_ne_zero hb)]
  · rw [BitVec.toNat_umod, h, Nat.mul_mod_left]; rfl

/-- R137: the dividend less its remainder is the quotient times the divisor, without wrap. -/
theorem toNat_sub_umod (a b : Value) : (a - a % b).toNat = (a / b).toNat * b.toNat := by
  have hle : a % b ≤ a := by rw [BitVec.le_def, BitVec.toNat_umod]; exact Nat.mod_le _ _
  have hdiv := Nat.div_add_mod' a.toNat b.toNat
  rw [BitVec.toNat_sub_of_le hle, BitVec.toNat_umod, BitVec.toNat_udiv]
  omega

/-- R136, R140: "shift + mask", with the exponent in place of the count of trailing zeros. -/
theorem div_mod_two_pow (a : Value) {b : Value} {k : Nat} (hk : k < 128) (hb : b.toNat = 2 ^ k) :
    a / b = a >>> k ∧ a % b = a &&& (b - 1) := by
  have hpair := pow2Division_eq (a := a) ((isPow2_iff b).2 ⟨k, hk, hb⟩)
  rw [pow2Division, ctzLimbs_of_two_pow hb hk, shrLimbs_of_nat, subLimbs_eq, Prod.mk.injEq] at hpair
  exact ⟨hpair.1.symm, hpair.2.symm⟩

/-! ## Bit lengths in the general case (R138) -/

theorem effLen_mono {a b : Value} (h : b.toNat ≤ a.toNat) : effLen b ≤ effLen a := by
  rcases Nat.eq_zero_or_pos (effLen b) with h0 | hpos
  · omega
  · have hpow : 2 ^ (effLen b - 1) < 2 ^ effLen a :=
      lt_of_le_of_lt ((two_pow_le_of_effLen b hpos).trans h) (lt_two_pow_effLen a)
    have := (Nat.pow_lt_pow_iff_right (by omega)).1 hpow
    omega

/-- A left shift by `n` that loses no bit lengthens a value by `n`. -/
theorem effLen_of_toNat_eq_mul_two_pow {b v : Value} {n : Nat} (hb : b ≠ 0) (h : v.toNat = b.toNat * 2 ^ n) :
    effLen v = effLen b + n := by
  have hpos := effLen_pos hb
  apply effLen_unique
  · rw [h, Nat.pow_add]
    exact Nat.mul_lt_mul_of_pos_right (lt_two_pow_effLen b) (Nat.two_pow_pos n)
  · rw [h, show effLen b + n - 1 = effLen b - 1 + n by omega, Nat.pow_add]
    exact Nat.mul_le_mul_right _ (two_pow_le_of_effLen b hpos)
  · omega

/-- R136: the alignment lengthens the divisor to the dividend's length. -/
theorem effLen_add_alignShift {a b : Value} (h : b.toNat ≤ a.toNat) : effLen b + alignShift a b = effLen a :=
  Nat.add_sub_cancel' (effLen_mono h)

/-- R138: 0, 1 and 2 are divisors of R136's earlier cases. -/
theorem three_le_of_not_isPow2 {b : Value} (h0 : b ≠ 0) (hp : isPow2 b = false) : 3 ≤ b.toNat := by
  have hpow : ∀ k < 128, b.toNat ≠ 2 ^ k := fun k hk he => by
    rw [(isPow2_iff b).2 ⟨k, hk, he⟩] at hp
    cases hp
  have hpos := value_ne_zero h0
  have h1 := hpow 0 (by decide)
  have h2 := hpow 1 (by decide)
  omega

end Sys2Proof.Machine
end

section
/-!
The statements about the generic division engine (42_divrem.md).
-/

namespace Sys2Proof.Machine

/-- Settles O24: the long division ends with the floor pair, and there is none for a zero divisor. -/
theorem divremIsFloorDivision : Obligations.DivremIsFloorDivision :=
  ⟨rfl, fun _ => ⟨exec_divrem_zero, exec_divrem⟩⟩

/-- Settles O25: the pair is the floor pair of the whole values, read as numbers. -/
theorem divremResultLaw : Obligations.DivremResultLaw := by
  refine fun a b hb => ⟨a / b, a % b, divrem_eq a hb, BitVec.toNat_udiv, BitVec.toNat_umod, ?_, ?_⟩
  · rw [BitVec.toNat_udiv, BitVec.toNat_umod, Nat.div_add_mod']
  · rw [BitVec.toNat_umod]
    exact Nat.mod_lt _ (value_ne_zero hb)

/-- Settles O26: the aligned divisor is as long as the dividend, so it fits and the shift is below 128. -/
theorem longDivisionBounds : Obligations.LongDivisionBounds := by
  intro a b hb hge hne _ hpow2
  have hle : b.toNat ≤ a.toNat := by rw [BitVec.lt_def] at hge; omega
  have hlt : b.toNat < a.toNat := lt_of_le_of_ne hle fun h => hne (BitVec.eq_of_toNat_eq h.symm)
  have hpos : 0 < effLen b := effLen_pos hb
  have hmax : effLen a ≤ 128 := effLen_le a
  have hsum := effLen_add_alignShift hle
  obtain ⟨haligned, -⟩ := aligned_divisor hb hle
  refine ⟨three_le_of_not_isPow2 hb hpow2, hlt, hpos, effLen_mono hle, hmax, by omega, by omega, haligned, ?_⟩
  rw [effLen_of_toNat_eq_mul_two_pow hb haligned, hsum]

/-- Settles O27: the dividend less its remainder is a product without wrap, and a power of two divides by shift and
mask. -/
theorem divisionRoundTrip : Obligations.DivisionRoundTrip := by
  refine ⟨?_, fun s k hk hb => ?_⟩
  · rintro s q r hb rfl rfl
    have hmul : (s.a - s.a % s.b).toNat = (s.a / s.b).toNat * s.b.toNat := toNat_sub_umod s.a s.b
    refine ⟨exec_divrem_of_eq hb (div_mod_of_toNat_eq_mul hb hmul), fun hq => ?_⟩
    exact exec_divrem_of_eq hq (div_mod_of_toNat_eq_mul hq (hmul.trans (Nat.mul_comm _ _)))
  · have hne : s.b ≠ 0 := by
      intro h0
      rw [h0] at hb
      exact (Nat.two_pow_pos k).ne hb
    exact exec_divrem_of_eq hne (div_mod_two_pow s.a hk hb)

end Sys2Proof.Machine
end

section
/-!
SUPPORT. `KDIVREM` as one next state (43_knuth_divrem.md), the two-stage chain on numbers, and the numbers of Algorithm D's
normalization.
-/

namespace Sys2Proof.Machine

/-! ## The command (R150, R192) -/

theorem exec_kdivrem_zero {s : State} (hb : s.b = 0) :
    exec .kdivrem s = .next { s with status := Status.divByZero } := by
  have hnone : kdivrem s.a s.b = none := by rw [hb, kdivrem_zero]
  simp only [exec, execKdivrem, hnone, finishDivision_zero]

theorem exec_kdivrem {s : State} (hb : s.b ≠ 0) :
    exec .kdivrem s = .next { s with y := s.a / s.b, z := s.a % s.b, status := Status.clear } := by
  simp only [exec, execKdivrem, kdivrem_eq s.a hb, finishDivision_some]

/-! ## Two stages (R153) -/

theorem stageProduct_pair (d1 d2 : Value) : stageProduct [d1, d2] = d1.toNat * d2.toNat := by
  simp [stageProduct]

theorem chained_pair (a : Value) {d1 d2 : Value} (h1 : d1 ≠ 0) (h2 : d2 ≠ 0) :
    (chained a [d1, d2]).1.toNat = a.toNat / (d1.toNat * d2.toNat) ∧
      (chained a [d1, d2]).2.toNat = a.toNat % (d1.toNat * d2.toNat) := by
  rw [← stageProduct_pair]
  exact chained_spec _ (by simp [value_ne_zero h1, value_ne_zero h2]) a

/-- R153: the remainder by a product, from those by its factors, "inner_remainder·outer_divisor + outer_remainder". -/
theorem mod_mul_eq_inner_add_outer (a d1 d2 : Nat) : a % (d1 * d2) = a / d1 % d2 * d1 + a % d1 := by
  rw [Nat.mod_mul, Nat.mul_comm d1, Nat.add_comm]

/-! ## Path 8: the numbers of the normalization (R156) -/

theorem ne_zero_of_hi_ne_zero {b : Value} (hb : hi b ≠ 0) : b ≠ 0 := by
  rintro rfl
  exact hb rfl

/-- R156: the shift is the count of leading zeros of a limb that is not 0. -/
theorem normalize_s_lt (a : Value) {b : Value} (hb : hi b ≠ 0) : (normalize a b).s < 64 := clz64_lt hb

theorem getLsbD_63_of_two_pow_le {x : Limb} (h : 2 ^ 63 ≤ x.toNat) : x.getLsbD 63 = true :=
  (BitVec.msb_eq_getLsbD_last x).symm.trans (BitVec.msb_eq_true_iff_two_mul_ge.2 (by omega))

theorem Normalized.dividend_eq_limbs (x : Normalized) :
    x.dividend = x.u2.toNat * 2 ^ 128 + (hi x.u).toNat * 2 ^ 64 + (lo x.u).toNat := by
  rw [Normalized.dividend, toNat_eq_limbs x.u, Nat.add_assoc]

theorem Normalized.Ok.two_pow_le_hi {x : Normalized} (h : x.Ok) : 2 ^ 63 ≤ (hi x.v).toNat := by
  have := h.norm
  omega

/-- R157: the native double-width divide does not overflow. -/
theorem Normalized.Ok.top_lt {x : Normalized} (h : x.Ok) : x.top < (hi x.v).toNat * 2 ^ 64 := by
  have hext := h.ext
  have hu := (hi x.u).isLt
  unfold Normalized.top
  omega

/-- R156: the extension word holds the `s` bits displaced from the dividend. -/
theorem normalize_u2_lt (a : Value) {b : Value} (hb : hi b ≠ 0) :
    (normalize a b).u2.toNat < 2 ^ (normalize a b).s := by
  have hU : (normalize a b).dividend = a.toNat * 2 ^ (normalize a b).s := normalized_dividend hb
  have hlt : a.toNat * 2 ^ (normalize a b).s < 2 ^ 128 * 2 ^ (normalize a b).s :=
    Nat.mul_lt_mul_of_pos_right a.isLt (Nat.two_pow_pos _)
  rw [← hU, Normalized.dividend] at hlt
  omega

/-- R156: normalizing both operands keeps the quotient. -/
theorem normalized_quotient (a : Value) {b : Value} (hb : hi b ≠ 0) :
    (normalize a b).dividend / (normalize a b).v.toNat = a.toNat / b.toNat := by
  rw [normalized_dividend hb, toNat_normalized_divisor hb, Nat.mul_div_mul_right _ _ (Nat.two_pow_pos _)]

end Sys2Proof.Machine
end

section
/-!
The statements about the optimized division engine (43_knuth_divrem.md).
-/

namespace Sys2Proof.Machine

/-- Settles O28: every path of the dispatch ends with the floor pair, and there is none for a zero divisor. -/
theorem kdivremIsFloorDivision : Obligations.KdivremIsFloorDivision :=
  ⟨rfl, fun _ => ⟨exec_kdivrem_zero, exec_kdivrem⟩⟩

/-- Settles O29: the floor pair, or the one error, is the answer of both engines. -/
theorem kdivremAgreesWithDivrem : Obligations.KdivremAgreesWithDivrem := by
  intro s
  by_cases hb : s.b = 0
  · rw [exec_kdivrem_zero hb, exec_divrem_zero hb]
  · rw [exec_kdivrem hb, exec_divrem hb]

/-- Settles O30: a chain divides by the product of its stages, and the stages of a divisor multiply to it. -/
theorem chainedStagesAreExact : Obligations.ChainedStagesAreExact := by
  refine ⟨by decide, fun _ _ _ => chained_eq, fun a d1 d2 h1 h2 => ?_⟩
  obtain ⟨hq, hr⟩ := chained_pair a h1 h2
  exact ⟨hq, hr, hr.trans (mod_mul_eq_inner_add_outer _ _ _)⟩

/-- Settles O31: the law of each path, and the second digit's bound from its remainder below the divisor. -/
theorem fastPathsAreExact : Obligations.FastPathsAreExact := by
  refine fun a b hb => ⟨fun k hk hpow => ?_, singleLimb_eq, fun hhi => ⟨twoByOne_eq hb hhi, ?_⟩⟩
  · exact pow2Division_eq ((isPow2_iff b).2 ⟨k, hk, hpow⟩)
  · have hpos : 0 < (lo b).toNat := by rw [← toNat_of_hi_zero hhi]; exact value_ne_zero hb
    exact twoByOne_digit_lt (Nat.mod_lt _ hpos) (lo a).isLt

/-- Settles O32: the shift removes the divisor's leading zeros and no more, and the extension word keeps what the dividend
would lose. -/
theorem normalizationLosesNoBit : Obligations.NormalizationLosesNoBit := by
  refine fun a b hb => ⟨Nat.le_of_lt_succ (normalize_s_lt a hb), ?_, toNat_normalized_divisor hb, ?_⟩
  · exact getLsbD_63_of_two_pow_le (normalize_ok hb).two_pow_le_hi
  · rw [← Normalized.dividend_eq_limbs]
    exact normalized_dividend hb

/-- Settles O33: the bounds of a normalized division, carried back to the operands by the quotient they share. -/
theorem algorithmDBounds : Obligations.AlgorithmDBounds := by
  intro a b hb
  have hok : (normalize a b).Ok := normalize_ok hb
  have hquot := normalized_quotient a hb
  have hs : 2 ^ (normalize a b).s ≤ 2 ^ 63 :=
    Nat.pow_le_pow_right (by decide) (Nat.le_of_lt_succ (normalize_s_lt a hb))
  have hpos : 0 < b.toNat := value_ne_zero (ne_zero_of_hi_ne_zero hb)
  have hv : 0 < (normalize a b).v.toNat := by
    rw [toNat_normalized_divisor hb]
    exact Nat.mul_pos hpos (Nat.two_pow_pos _)
  refine ⟨normalize_u2_lt a hb, hs, hok.two_pow_le_hi, hok.top_lt, Nat.le_sub_one_of_lt (trialDigit_lt hok),
    hquot ▸ digit_le_trialDigit hok, hquot ▸ trialDigit_le hok, hquot ▸ toNat_estimatedDigit hok, ?_,
    not_borrows hok, ?_, ?_⟩
  · rw [toNat_estimatedDigit hok]
    exact Nat.div_mul_le_self _ _
  · rw [(addBack_eq hok).2]
    exact Nat.mod_lt _ hv
  · rw [algorithmD_eq hb, BitVec.toNat_udiv, BitVec.toNat_umod]
    exact ⟨Nat.mod_lt _ hpos, Nat.div_add_mod' _ _⟩

end Sys2Proof.Machine
end

section
/-!
SUPPORT. `MODM` as one next state (44_modm.md), its word on numbers, and the class dispatch of R171.
-/

namespace Sys2Proof

theorem toNat_append_eq_add {m n : Nat} (x : BitVec m) (y : BitVec n) :
    (x ++ y).toNat = x.toNat * 2 ^ n + y.toNat := by
  rw [BitVec.toNat_append, ← Nat.shiftLeft_add_eq_or_of_lt y.isLt, Nat.shiftLeft_eq]

/-- R61: a word with zeros in its reserved fields, on numbers. -/
theorem toNat_wordOf (imm : BitVec 8) (op : BitVec 6) : (wordOf imm op).toNat = op.toNat + 256 * imm.toNat := by
  simp only [wordOf, toNat_append_eq_add, BitVec.toNat_ofNat]
  omega

theorem encode_modm (m : BitVec 8) : encode (.modm m) = BitVec.ofNat 64 (0x22 + 256 * m.toNat) := by
  have hword : (encode (.modm m)).toNat = 0x22 + 256 * m.toNat := toNat_wordOf m 0x22#6
  rw [← hword, BitVec.ofNat_toNat, BitVec.setWidth_eq]

namespace Machine

/-! ## The command (R170) -/

theorem exec_modm (m : BitVec 8) (s : State) :
    exec (.modm m) s = .next { s with y := modReduce s.a m.toNat, status := Status.clear } := rfl

/-- R173: "The result is always `< M`", so it is the low limb. -/
theorem toNat_lo_modReduce (a : Value) {m : Nat} (h1 : 0 < m) (h2 : m < 2 ^ 64) :
    (lo (modReduce a m)).toNat = a.toNat % m := by
  rw [modReduce, lo_zextLimb, ← toNat_zextLimb]
  exact toNat_modReduce a h1 h2

/-- R170: `v.mod<M>() == divrem(v, M).second`. -/
theorem umod_eq_modReduce (a : Value) {m : BitVec 8} (h : 0 < m.toNat) :
    a % m.setWidth 128 = modReduce a m.toNat := by
  apply BitVec.eq_of_toNat_eq
  rw [BitVec.toNat_umod, BitVec.toNat_setWidth_of_le (by decide), toNat_modReduce a h (m.isLt.trans (by decide))]

theorem setWidth_modulus_ne_zero {m : BitVec 8} (h : 0 < m.toNat) : m.setWidth 128 ≠ 0 := by
  intro h0
  have hzero : (m.setWidth 128).toNat = 0 := congrArg BitVec.toNat h0
  rw [BitVec.toNat_setWidth_of_le (by decide)] at hzero
  exact h.ne' hzero

/-! ## The strategy classes (R171) -/

theorem two_pow_of_modClass {m : Nat} (h : modClass m = .powerOfTwo) : ∃ k < 64, m = 2 ^ k := by
  have key : ∀ n ∈ [2, 4, 8, 16, 32], ∃ k < 64, n = 2 ^ k := by decide
  unfold modClass at h
  split_ifs at h with hmem
  exact key m hmem

/-- R171: "every class must give `a mod M`". -/
theorem modByClass_eq (a : Value) {m : Nat} (h1 : 0 < m) (h2 : m < 2 ^ 128) : modByClass a m = a.toNat % m := by
  unfold modByClass
  split
  case h_1 hclass =>
    obtain ⟨k, hk, rfl⟩ := two_pow_of_modClass hclass
    exact modMask_eq a hk
  case h_2 => exact modCongruence_eq a m
  case h_3 => exact modCongruence_eq a m
  case h_4 => exact modDivrem_eq a h1 h2

end Machine
end Sys2Proof
end

section
/-!
The statements about the reduction unit (44_modm.md).
-/

namespace Sys2Proof.Machine

/-- Settles O34: the remainder fits the low limb, and it is the remainder of the long division. -/
theorem modmIsRemainder : Obligations.ModmIsRemainder := by
  intro m s h2 h63
  have hpos : 0 < m.toNat := by omega
  have hlt : m.toNat < 2 ^ 64 := by omega
  refine ⟨encode_modm m, decode_encode (modulusLegal_iff.2 ⟨h2, h63⟩), modReduce s.a m.toNat, exec_modm m s,
    toNat_modReduce s.a hpos hlt, hi_modReduce s.a m.toNat, ?_, s.a / m.setWidth 128, ?_⟩
  · rw [toNat_lo_modReduce s.a hpos hlt]
    exact Nat.mod_lt _ hpos
  · exact exec_divrem_of_eq (setWidth_modulus_ne_zero hpos) ⟨rfl, umod_eq_modReduce s.a hpos⟩

/-- Settles O35: a value is its limbs on the two weights, and each class has a law that gives the remainder. -/
theorem strategyClassesAgree : Obligations.StrategyClassesAgree :=
  ⟨fun a m _ => (modCongruence_eq a m).symm, by decide, by decide, by decide,
    fun _ hk => Nat.mod_eq_zero_of_dvd (pow_dvd_pow 2 hk), fun a _ h2 h63 => modByClass_eq a (by omega) (by omega)⟩

end Sys2Proof.Machine
end

section
/-!
SUPPORT. `NOP` and the register moves as one next state (45_control.md): each is its shared ending, R71.
-/

namespace Sys2Proof.Machine

theorem exec_nop (s : State) : exec .nop s = .next { s with status := Status.clear } := rfl

theorem exec_movya (s : State) : exec .movya s = .next { s with a := s.y, status := Status.clear } := rfl

theorem exec_movyb (s : State) : exec .movyb s = .next { s with b := s.y, status := Status.clear } := rfl

theorem exec_movza (s : State) : exec .movza s = .next { s with a := s.z, status := Status.clear } := rfl

theorem exec_movzb (s : State) : exec .movzb s = .next { s with b := s.z, status := Status.clear } := rfl

end Sys2Proof.Machine
end

section
/-!
The statement about the control and register-move commands (45_control.md).
-/

namespace Sys2Proof.Machine

/-- Settles O36: each word is the encoding of its command, read back by the round trip; each command is its next state. -/
theorem nopAndMoves : Obligations.NopAndMoves :=
  ⟨decode_encode (i := .nop) rfl, decode_encode (i := .movya) rfl, decode_encode (i := .movyb) rfl,
    decode_encode (i := .movza) rfl, decode_encode (i := .movzb) rfl,
    fun s => ⟨exec_nop s, exec_movya s, exec_movyb s, exec_movza s, exec_movzb s⟩⟩

end Sys2Proof.Machine
end

section
/-!
SUPPORT. Which steps answer a next state, and what every step keeps (60_exceptions.md R190, R194; 20_memory.md R42): the
accesses still to make stay admitted, and `STATUS` never has both bits set.
-/

namespace Sys2Proof.Machine

variable {s t : State} {h : Nat} {rest : List Event}

theorem step_of_no_event (he : s.events = []) : step s = .next s := by
  simp [step, takeEvent, he]

theorem step_of_resetInput (he : s.events = .resetInput :: rest) :
    step s = .next (platformReset { s with events := rest }) := by
  simp [step, takeEvent, he]

theorem step_of_powerLoss (he : s.events = .powerLoss :: rest) :
    step s = .next (losePower { s with events := rest }) := by
  simp [step, takeEvent, he]

/-- A step takes the next event and schedules no other. -/
theorem step_events (ht : step s = .next t) : t.events = s.events.tail := by
  rcases step_cases ht with ⟨he, rfl⟩ | ⟨h, rest, he, e⟩ | ⟨rest, he, rfl⟩ | ⟨rest, he, rfl⟩
  · rw [he, List.tail_nil]
  · rw [he, e.outside.1, List.tail_cons]
  · rw [he, platformReset_events, List.tail_cons]
  · rw [he, losePower_events, List.tail_cons]

/-! ## Admitted accesses (R42) -/

/-- R42, R190: only an access that is not admitted has no step. -/
theorem step_next_of_allAdmitted (hs : allAdmitted s) : ∃ t, step s = .next t := by
  cases he : s.events with
  | nil => exact ⟨_, step_of_no_event he⟩
  | cons event rest =>
    cases event with
    | turn h =>
      rw [step_of_turn he]
      exact takeTurn_next fun p hp => hs p (List.mem_of_getElem? hp)
    | resetInput => exact ⟨_, step_of_resetInput he⟩
    | powerLoss => exact ⟨_, step_of_powerLoss he⟩

/-- A turn leaves each host some of the accesses it had: the host at `h` all but its first, any other all of them. -/
theorem takeTurn_keeps_allAdmitted (hs : allAdmitted s) (ht : takeTurn h s = .next t) : allAdmitted t := by
  obtain ⟨-, -, hothers, hlength⟩ := (takeTurn_cases ht).outside
  intro p hp acc hacc
  obtain ⟨k, hk⟩ := List.mem_iff_getElem?.1 hp
  by_cases hkh : k = h
  · subst hkh
    obtain ⟨hlt, -⟩ := List.getElem?_eq_some_iff.1 hk
    have hbefore : s.hosts[k]? = some s.hosts[k] := List.getElem?_eq_getElem (hlength ▸ hlt)
    obtain ⟨p', hp', htodo, -⟩ := takeTurn_own_port hbefore ht
    obtain rfl : p' = p := Option.some.inj (hp'.symm.trans hk)
    exact hs _ (List.mem_of_getElem? hbefore) acc (List.mem_of_mem_tail (htodo ▸ hacc))
  · exact hs p (List.mem_of_getElem? ((hothers k hkh).symm.trans hk)) acc hacc

/-- Only a turn changes what the hosts have still to do. -/
theorem step_keeps_allAdmitted (hs : allAdmitted s) (ht : step s = .next t) : allAdmitted t := by
  rcases step_cases ht with ⟨-, rfl⟩ | ⟨h, rest, he, -⟩ | ⟨rest, -, rfl⟩ | ⟨rest, -, rfl⟩
  · exact hs
  · rw [step_of_turn he] at ht
    exact takeTurn_keeps_allAdmitted (s := { s with events := rest }) hs ht
  · exact hs
  · exact hs

/-! ## The invariant (R194) -/

theorem TurnEffect.keeps_statusExclusive (e : TurnEffect h s t) (hs : statusExclusive s) : statusExclusive t := by
  cases e with
  | idle | read => exact hs
  | write off width v more got hp ha _ ht =>
    obtain ⟨u, hu, -, hkeep⟩ := writeWindow_next off v (setPort h more got s)
    cases hu.symm.trans ht
    exact hkeep hs

theorem powerStays_of_step (hs : powerStays s) (ht : step s = .next t) : powerStays t := by
  intro hmem
  rw [step_events ht] at hmem
  exact hs (List.mem_of_mem_tail hmem)

/-- R194, I15: a loss of power is the one event that can leave both bits set. -/
theorem step_keeps_statusExclusive (hx : statusExclusive s) (hp : powerStays s) (ht : step s = .next t) :
    statusExclusive t := by
  rcases step_cases ht with ⟨-, rfl⟩ | ⟨h, rest, -, e⟩ | ⟨rest, -, rfl⟩ | ⟨rest, he, -⟩
  · exact hx
  · exact e.keeps_statusExclusive hx
  · simp [statusExclusive]
  · exact absurd (by simp [he]) hp

end Sys2Proof.Machine
end

section
/-!
SUPPORT. The frame of the two divisions (R71, R192), and that a step reads and writes the CORE's registers by its access
alone, whichever host makes it (R200).
-/

namespace Sys2Proof.Machine

variable {s s' t t' : State}

/-! ## Divisions -/

/-- R71, R192: a division writes `Y`, `Z` and `STATUS`; with a zero divisor, `STATUS` only. -/
theorem exec_division {i : Instr} (hi : i = .divrem ∨ i = .kdivrem) (s : State) :
    ∃ q r st, exec i s = .next { s with y := q, z := r, status := st } ∧
      (s.b = 0 → q = s.y ∧ r = s.z ∧ st = Status.divByZero) := by
  by_cases hb : s.b = 0
  · refine ⟨s.y, s.z, Status.divByZero, ?_, fun _ => ⟨rfl, rfl, rfl⟩⟩
    rcases hi with rfl | rfl
    · exact exec_divrem_zero hb
    · exact exec_kdivrem_zero hb
  · refine ⟨s.a / s.b, s.a % s.b, Status.clear, ?_, fun h0 => absurd h0 hb⟩
    rcases hi with rfl | rfl
    · exact exec_divrem hb
    · exact exec_kdivrem hb

/-- A result in `Y` and `Z` is seen at their four limbs and `STATUS` only. -/
theorem readWindow_division {off : Offset} (hylo : off ≠ regOffset .yLo) (hyhi : off ≠ regOffset .yHi)
    (hzlo : off ≠ regOffset .zLo) (hzhi : off ≠ regOffset .zHi) (hst : off ≠ regOffset .status) (q r : Value)
    (st : Status) (s : State) : readWindow off { s with y := q, z := r, status := st } = readWindow off s := by
  refine readWindow_congr fun reg hreg => ?_
  cases reg with
  | yLo => exact absurd hreg hylo
  | yHi => exact absurd hreg hyhi
  | zLo => exact absurd hreg hzlo
  | zHi => exact absurd hreg hzhi
  | status => exact absurd hreg hst
  | _ => rfl

/-! ## The same access on the same registers -/

theorem writeReg_core (hc : sameCore s s') (r : WindowReg) (v : Limb) :
    sameCore (writeReg r v s) (writeReg r v s') := by
  obtain ⟨ha, hb, hy, hz, hst⟩ := hc
  cases r <;> simp [sameCore, writeReg, ha, hb, hy, hz, hst]

theorem issueCommand_core {w : CmdWord} (hc : sameCore s s') (ht : issueCommand w s = .next t)
    (ht' : issueCommand w s' = .next t') : sameCore t t' := by
  cases hd : decode w with
  | ok i =>
    rw [issueCommand_of_decode hd] at ht ht'
    exact exec_core hc ht ht'
  | error e =>
    simp only [issueCommand, hd, recordIllegal] at ht ht'
    cases ht
    cases ht'
    obtain ⟨ha, hb, hy, hz, -⟩ := hc
    exact ⟨ha, hb, hy, hz, rfl⟩

theorem writeWindow_core {off : Offset} {v : Limb} (hc : sameCore s s') (ht : writeWindow off v s = .next t)
    (ht' : writeWindow off v s' = .next t') : sameCore t t' := by
  cases hr : regAt off with
  | none =>
    rw [writeWindow_reserved hr] at ht ht'
    cases ht
    cases ht'
    exact hc
  | some r =>
    obtain rfl := regAt_eq_some.1 hr
    by_cases hcmd : r = .cmd
    · subst hcmd
      exact issueCommand_core hc ht ht'
    · rw [writeWindow_reg hcmd] at ht ht'
      cases ht
      cases ht'
      exact writeReg_core hc r v

/-- The next access is the first one of the host that has the next turn. -/
theorem nextAccess_eq_some {acc : Access} (h : nextAccess s = some acc) : ∃ k rest more got,
    s.events = .turn k :: rest ∧ s.hosts[k]? = some { todo := acc :: more, got := got } := by
  unfold nextAccess at h
  split at h
  · rename_i k rest he
    split at h
    · rename_i hp
      cases h
      exact ⟨k, rest, _, _, he, hp⟩
    · cases h
  · cases h

/-- R200: what an access does to the registers depends on the access and the registers, not on its host. -/
theorem performAccess_core {h h' : Nat} {acc : Access} {more more' : List Access} {got got' : List Limb}
    (hc : sameCore s s') (ht : performAccess h acc more got s = .next t)
    (ht' : performAccess h' acc more' got' s' = .next t') : sameCore t t' := by
  unfold performAccess at ht ht'
  by_cases hadm : admitted acc = true
  · rw [if_pos hadm] at ht ht'
    cases acc with
    | read off width =>
      cases ht
      cases ht'
      exact hc
    | write off width v =>
      exact writeWindow_core (s := setPort h more got s) (s' := setPort h' more' got' s') hc ht ht'
  · rw [if_neg hadm] at ht
    cases ht

/-- A step that has an access to take is that access, by some host. -/
theorem step_of_nextAccess {acc : Access} (hacc : nextAccess s = some acc) : ∃ h rest more got,
    step s = performAccess h acc more got { s with events := rest } := by
  obtain ⟨h, rest, more, got, he, hp⟩ := nextAccess_eq_some hacc
  exact ⟨h, rest, more, got, step_of_access he hp⟩

end Sys2Proof.Machine
end

section
/-!
The statements about errors, progress and the hosts that share the CORE (60_exceptions.md).
-/

namespace Sys2Proof.Machine

/-- Settles O53: only an access that is not admitted is refused, and a step gives no host a new one. -/
theorem neverStopsWhileAdmitted : Obligations.NeverStopsWhileAdmitted := by
  intro s hs
  obtain ⟨t, ht⟩ := step_next_of_allAdmitted hs
  exact ⟨t, ht, step_keeps_allAdmitted hs ht⟩

/-- Settles O54: each half of the invariant is kept, the first while the second holds. -/
theorem stepKeepsInvariant : Obligations.StepKeepsInvariant := by
  rintro s t ⟨hx, hp⟩ ht
  exact ⟨step_keeps_statusExclusive hx hp ht, powerStays_of_step hp ht⟩

/-- Settles O37: an illegal word has R193's effect alone, and an accepted one clears `ILL` (R71). -/
theorem illegalWordOnlySetsIll : Obligations.IllegalWordOnlySetsIll := by
  intro w w' s hw hw'
  obtain ⟨i, hd⟩ := (decode_isOk_iff_legal w').2 hw'
  obtain ⟨t, ht, e⟩ := exec_effect i { s with status := Status.illegal }
  exact ⟨t, issueCommand_of_not_legal hw s, (issueCommand_of_decode hd _).trans ht, e.status.1⟩

/-- Settles O39: every write to `CMD` completes, and an illegal word has R193's effect. -/
theorem commandCompletesWithOneErrorAtMost : Obligations.CommandCompletesWithOneErrorAtMost := by
  intro w s
  obtain ⟨t, ht, hout, hx⟩ := issueCommand_next w s
  refine ⟨t, ht, hout, hx, fun hw => ?_⟩
  cases ht.symm.trans (issueCommand_of_not_legal hw s)
  exact ⟨rfl, rfl⟩

/-- Settles O41: a division ends with a pair in `Y` and `Z`, their own values when the divisor is zero. -/
theorem frameOfDivisions : Obligations.FrameOfDivisions := by
  intro i s hi
  obtain ⟨q, r, st, ht, hzero⟩ := exec_division hi s
  exact ⟨_, ht, rfl, rfl, ⟨rfl, rfl, rfl⟩, hzero,
    fun off hylo hyhi hzlo hzhi hst => readWindow_division hylo hyhi hzlo hzhi hst q r st s⟩

/-- Settles O52: both steps are the same access on the same registers. -/
theorem hostsAreAnonymous : Obligations.HostsAreAnonymous := by
  intro s s' t t' acc hc hacc hacc' ht ht'
  obtain ⟨h, rest, more, got, hstep⟩ := step_of_nextAccess hacc
  obtain ⟨h', rest', more', got', hstep'⟩ := step_of_nextAccess hacc'
  exact performAccess_core (s := { s with events := rest }) (s' := { s' with events := rest' }) hc
    (hstep.symm.trans ht) (hstep'.symm.trans ht')

/-- Settles O57: the step is the loss of power, on the rest of the schedule. -/
theorem powerLossDrawsFreeValues : Obligations.PowerLossDrawsFreeValues := by
  intro s rest he
  exact ⟨_, step_of_powerLoss he, rfl, rfl, rfl, rfl, rfl, rfl, rfl, rfl, rfl⟩

end Sys2Proof.Machine
end

section
/-!
SUPPORT. A command and the read after it (70_reset_and_hazards.md R213), and the writes that are no command (R214).
-/

namespace Sys2Proof.Machine

/-- A host that has made its access is where it was, with what it has still to do and what it has read. -/
theorem setPort_own_port {s : State} {h : Nat} {p : HostPort} (hp : s.hosts[h]? = some p) (todo : List Access)
    (got : List Limb) : (setPort h todo got s).hosts[h]? = some { todo := todo, got := got } := by
  obtain ⟨hlt, -⟩ := List.getElem?_eq_some_iff.1 hp
  exact List.getElem?_set_self hlt

/-- A turn that writes `CMD` leaves the registers that issuing the word leaves. -/
theorem step_command_core {s t u : State} {h : Nat} {rest : List Event} {w : CmdWord} {more : List Access}
    {got : List Limb} (he : s.events = .turn h :: rest)
    (hp : s.hosts[h]? = some { todo := .write (regOffset .cmd) 8 w :: more, got := got })
    (hu : issueCommand w s = .next u) (ht : step s = .next t) : sameCore t u := by
  rw [step_of_write he rfl hp, writeWindow_cmd] at ht
  have htaken : sameCore (setPort h more got { s with events := rest }) s := ⟨rfl, rfl, rfl, rfl, rfl⟩
  exact issueCommand_core htaken ht hu

/-- R26, R42: an 8-byte write that is no command has another offset. -/
theorem ne_cmd_of_not_isCommand {off : Offset} {v : Limb} (h : isCommand (.write off 8 v) = false) :
    off ≠ regOffset .cmd := by
  rintro rfl
  simp [isCommand, Config.accessBytes] at h

end Sys2Proof.Machine
end

section
/-!
The statements about reset and the order of a command and its readers (70_reset_and_hazards.md).
-/

namespace Sys2Proof.Machine

/-- Settles O48: the read finds the registers that the command left, in whichever host's turn. -/
theorem readAfterCommandSeesResult : Obligations.ReadAfterCommandSeesResult := by
  intro s t u h k rest w off more more' got got' he hp hu ht hread hoff
  have hcore : sameCore t u := step_command_core he hp hu ht
  have het : t.events = .turn k :: rest := by rw [step_events ht, he, List.tail_cons]
  refine ⟨_, step_of_read het hoff hread, ?_, hcore⟩
  rw [readWindow_of_sameCore hcore off]
  exact setPort_own_port (s := { t with events := rest }) hread more' _

/-- Settles O49: such a step keeps the CORE's registers or writes to the window elsewhere than at `CMD` (R32). -/
theorem resultsStayUntilNextCommand : Obligations.ResultsStayUntilNextCommand := by
  intro s t ht hr hl hcmd
  rcases step_core_cases ht hr hl with ⟨-, -, hy, hz, hst⟩ | ⟨off, v, u, hacc, ⟨-, -, hy, hz, hst⟩, hw⟩
  · exact ⟨hy.symm, hz.symm, hst.symm⟩
  · obtain ⟨t', ht', hy', hz', hst'⟩ := writeWindow_of_ne_cmd (ne_cmd_of_not_isCommand (hcmd _ hacc)) v u
    cases hw.symm.trans ht'
    exact ⟨hy'.trans hy.symm, hz'.trans hz.symm, hst'.trans hst.symm⟩

/-- Settles O56: the step is the reset, on the rest of the schedule, or there is no event to take. -/
theorem resetInputThenWait : Obligations.ResetInputThenWait :=
  ⟨fun _ _ he => ⟨_, step_of_resetInput he, ⟨rfl, rfl, rfl, rfl, rfl⟩, ⟨rfl, rfl, rfl⟩⟩, fun _ => step_of_no_event⟩

end Sys2Proof.Machine
end

section
/-!
SUPPORT. The two's-complement reading of results modulo `2^128` (40_limb.md section 7, R103).
-/

namespace Sys2Proof.Machine

theorem exec_not (s : State) : exec .not s = .next { s with y := ~~~s.a, status := Status.clear } :=
  finishY_of_eq (pair_not s.a) s

/-- R103: the complement of every bit, the sign bit among them. -/
theorem toInt_not_eq (a : Value) : (~~~a).toInt = -1 - a.toInt := by
  have hlt := a.isLt
  rw [BitVec.toInt_eq_toNat_cond, BitVec.toInt_eq_toNat_cond, BitVec.toNat_not]
  split_ifs <;> omega

/-- R103: `toNat` and `toInt` differ by a multiple of `2^128`, which scaling by `2^n` keeps. -/
theorem toInt_shiftLeft_eq_bmod (a : Value) (n : Nat) : (a <<< n).toInt = Int.bmod (a.toInt * 2 ^ n) (2 ^ 128) := by
  rw [BitVec.toInt_shiftLeft, BitVec.toInt_eq_toNat_bmod a, Int.bmod_mul_bmod, Nat.shiftLeft_eq,
    Nat.cast_mul, Nat.cast_pow, Nat.cast_ofNat]

end Sys2Proof.Machine
end

section
/-!
The statements about the limb unit and `MUL` that rest on general knowledge (93_implementation_defined.md G1, G2, G4).
-/

namespace Sys2Proof.Machine

/-- Settles O13: each whole-value result, read as a signed number, and equality, which any reading tells. -/
theorem signedReadingOfResults : Obligations.SignedReadingOfResults := by
  refine fun s => ⟨?_, ?_, ?_, ?_, ?_, fun n hn => ?_, ?_, ?_, ?_⟩
  · exact ⟨_, exec_add s, BitVec.toInt_add s.a s.b⟩
  · exact ⟨_, exec_sub s, BitVec.toInt_sub⟩
  · exact ⟨_, exec_inc s, BitVec.toInt_add s.a 1⟩
  · exact ⟨_, exec_dec s, BitVec.toInt_sub⟩
  · exact ⟨_, exec_not s, toInt_not_eq s.a⟩
  · refine ⟨_, exec_shl s, ?_⟩
    rw [hn, Int.toNat_natCast]
    exact toInt_shiftLeft_eq_bmod s.a n
  · exact ⟨_, rfl, boolValue_of_decide (eqLimbs_eq s.a s.b) BitVec.toInt_inj.symm⟩
  · rw [← ite_not]
    exact ⟨_, rfl, boolValue_of_decide (neLimbs_eq s.a s.b) BitVec.toInt_inj.symm.not⟩
  · exact ⟨_, exec_mul s, BitVec.toInt_mul s.a s.b⟩

/-- Settles O17: the length is 128 less the leading zeros, so bit `n - 1` is the highest that is set. -/
theorem efflenIsBitLength : Obligations.EfflenIsBitLength :=
  ⟨rfl, fun s => ⟨effLen s.a, rfl, effLen_le s.a, lt_two_pow_effLen s.a, two_pow_le_of_effLen s.a⟩⟩

end Sys2Proof.Machine
end
